-- ==== Sys2Proof/Word.lean ====
section
/-! DEFINITION. The unit of every byte space of the block, and the byte sequence (spec 00_scope.md R7, R8). -/

namespace Sys2Proof

/-- An 8-bit byte; bit 7 is the most significant (R7). -/
abbrev Byte := BitVec 8

/-- A byte sequence: a finite list of bytes, index 0 first (R8). -/
abbrev Bytes := List Byte

end Sys2Proof
end

