-- ==== Sys2Proof/Config.lean ====
section
/-! DEFINITION. What an implementation fixes: the three capacity parameters (spec 00_scope.md R6, decision D12), and
the two values the spec leaves unstated. -/

namespace Sys2Proof

/-- The capacity parameters of R6. `none` is the spec's `unbounded`. -/
structure Config where
  /-- `MSG_MAX`: the largest operand of DECODE and the largest output of ENCODE, in bytes. -/
  msgMax : Option Nat
  /-- `OPT_MAX`: the most option entries the MRF holds. -/
  optMax : Option Nat
  /-- `STORE_MAX`: the most bytes of option values plus payload the MRF holds. -/
  storeMax : Option Nat
  deriving DecidableEq, Repr

/-- `n` keeps the bound `b`: always so when the bound is `unbounded` (R6). -/
def fits (b : Option Nat) (n : Nat) : Bool :=
  match b with
  | none => true
  | some m => n ≤ m

/-- The constraints R6 puts on the parameters: `MSG_MAX >= 4` and `STORE_MAX >= MSG_MAX`
(an unbounded `MSG_MAX` asks for an unbounded `STORE_MAX`). -/
def Config.wf (c : Config) : Bool :=
  (match c.msgMax with
    | none => true
    | some m => 4 ≤ m) &&
  (match c.msgMax, c.storeMax with
    | _, none => true
    | none, some _ => false
    | some m, some t => m ≤ t)

/-- The defaults of R6: every parameter unbounded. -/
def Config.default : Config :=
  { msgMax := none, optMax := none, storeMax := none }

/-- FREE VALUE (log 10). What READ OPT_COUNT returns when `|OPTS|` does not fit its 4 bytes: the spec states no result. -/
opaque Config.wideOptCount : Nat → BitVec 32

/-- FREE VALUE (log 10). What READ OUT_LEN returns when `|OUT|` does not fit its 4 bytes: the spec states no result. -/
opaque Config.wideOutLen : Nat → BitVec 32

end Sys2Proof
end

