-- ==== Sys2Proof/Machine/State.lean ====
section
/-! DEFINITION. The state of the block as plain data (spec 10_state.md), the error kinds (60_exceptions.md R200), the
reasons a step can stop, and the state after reset (R39). -/

namespace Sys2Proof.Machine

/-- The error kinds of R200; success is the absence of one. -/
inductive Err where
  | bufferTooShort
  | unsupportedVersion
  | invalidTokenLength
  | truncatedToken
  | reservedLengthField
  | truncatedOption
  | invalidType
  | tokenTooLong
  | valueTooLarge
  | numberOverflow
  | capacityExceeded
  | illegalCommand
  deriving DecidableEq, Repr

/-- An option record `(NUM, VAL)` (R28). -/
structure Opt where
  num : BitVec 32
  val : Bytes
  deriving DecidableEq, Repr

/-- The record `Message` of R37, which is also the content of the message register file; `ver` is hardwired to 1 (R23)
and the token length is the length of `token` (R27), so neither is stored. -/
structure Message where
  type : BitVec 2
  code : Byte
  mid : BitVec 16
  token : Bytes
  opts : List Opt
  payload : Bytes
  deriving DecidableEq, Repr

/-- The default message: "version 1, type 0, code 0, id 0, empty token/options/payload" (R39). -/
def Message.default : Message :=
  { type := 0, code := 0, mid := 0, token := [], opts := [], payload := [] }

/-- A response (00_scope.md R12): an error, or none for success (code 0), and a result. -/
structure Response where
  err : Option Err
  data : Bytes
  deriving DecidableEq, Repr

/-- Where a DECODE in progress stands: before its header, or at a descriptor position after it (42 R161). -/
inductive Stage where
  | header
  | options
  deriving DecidableEq, Repr

/-- The working variables of a DECODE while it runs (R35): the operand `IN`, the cursor `pos`, the running option number
`num` and the message under construction. -/
structure DecodeWork where
  inBuf : Bytes
  pos : Nat
  stage : Stage
  num : BitVec 32
  msg : Message
  deriving DecidableEq, Repr

/-- No command runs, or a DECODE is in progress (log 5). -/
inductive Work where
  | idle
  | decoding (w : DecodeWork)
  deriving DecidableEq, Repr

/-- The state: MRF, STATUS and OUT (R20); the parameters of the step relation, which no step writes (log 4); the working
variables of a DECODE (R35, log 5); and the two ports (logs 1 and 2). -/
structure State where
  /-- `MSG_MAX`, `OPT_MAX` and `STORE_MAX` (00_scope.md R6). -/
  cfg : Config
  /-- The message register file (R23 to R31). -/
  mrf : Message
  /-- `STATUS` (R32). -/
  status : BitVec 16
  /-- `OUT` (R34). -/
  out : Bytes
  /-- The working variables of a command in progress (R35). -/
  work : Work
  /-- The bytes waiting at the command port. -/
  input : Bytes
  /-- The responses given so far, newest first (00_scope.md R12). -/
  responses : List Response
  deriving DecidableEq, Repr

/-- The reset state (R39, 70 R230) of a block with parameters `c`. The spec gives every value of the MRF, STATUS and OUT;
an idle block with empty ports is the model's choice (logs 1, 2 and 5). -/
def State.resetWith (c : Config) : State :=
  { cfg := c, mrf := Message.default, status := 0, out := [], work := .idle, input := [], responses := [] }

/-- The machine right after reset, its parameters at their defaults (00_scope.md R6). -/
def State.reset : State := State.resetWith Config.default

/-- The state has no move: the spec's treatment "stuck" (93_implementation_defined.md). A failing command is no fault: it
ends with an error code in a next state (60_exceptions.md R204). -/
inductive Fault where
  /-- A command issued while another runs (70 R233, decision D19). Raised by the CMD and READ-SEL rows. Safe: it stops
  where an implementation might queue or reject the command. -/
  | overlappingCommand
  /-- A wire unit executed with no DECODE at the place where that unit is met. Raised by the HDR row and the WIRE-DESC
  rows. Safe: the spec meets these units only inside a DECODE (40 and 41, "not host commands"). -/
  | wireUnitOutOfPlace
  deriving DecidableEq, Repr

/-- No instruction to run. -/
inductive Refusal where
  /-- An instruction whose meaning is not written yet. Raised by exec. Safe. -/
  | notModelled (mnemonic : String)
  /-- Nothing waits at the command port. Raised by step. Safe: the host has issued no command, so there is no
  transition. -/
  | noCommand
  /-- The bytes at the command port end inside a command's operands: "refused at the transport boundary" (decision D26).
  Raised by step. Safe. -/
  | truncatedCommand
  deriving DecidableEq, Repr

/-- The three outcomes of a step of this machine. -/
abbrev Result := Host.Outcome State Fault Refusal

end Sys2Proof.Machine
end

