-- ==== Sys2Proof/Machine/Flags.lean ====
section
/-! DEFINITION. The error codes (spec 60_exceptions.md R200, R201) and the STATUS register (10_state.md R32, R33). -/

namespace Sys2Proof.Machine

/-- The numeric code of an outcome; 0 means success (R200). -/
def errCode : Option Err → Byte
  | none => 0
  | some .bufferTooShort => 1
  | some .unsupportedVersion => 2
  | some .invalidTokenLength => 3
  | some .truncatedToken => 4
  | some .reservedLengthField => 5
  | some .truncatedOption => 6
  | some .invalidType => 7
  | some .tokenTooLong => 8
  | some .valueTooLarge => 9
  | some .numberOverflow => 10
  | some .capacityExceeded => 11
  | some .illegalCommand => 12

/-- The two classes that group the decode errors; they have no codes of their own (R201). -/
inductive ErrClass where
  | malformedHeader
  | malformedOption
  deriving DecidableEq, Repr

/-- The class a host maps a code to (R201). -/
def Err.class? : Err → Option ErrClass
  | .bufferTooShort | .unsupportedVersion | .invalidTokenLength => some .malformedHeader
  | .reservedLengthField | .truncatedOption => some .malformedOption
  | .truncatedToken | .invalidType | .tokenTooLong | .valueTooLarge | .numberOverflow | .capacityExceeded
  | .illegalCommand => none

/-- The value STATUS takes when a non-READ command ends: `DONE <- 1; ERRCODE <- code; ERR <- (code ≠ 0)`, bits 7:2
hardwired to 0 (R32, R33). -/
def statusWord (e : Option Err) : BitVec 16 :=
  let err : BitVec 1 := if errCode e = 0 then 0 else 1
  errCode e ++ (0 : BitVec 6) ++ err ++ (1 : BitVec 1)

/-- `STATUS.DONE`, bit 0 (R32). -/
def State.done (s : State) : BitVec 1 := s.status.extractLsb' 0 1

/-- `STATUS.ERR`, bit 1 (R32). -/
def State.err (s : State) : BitVec 1 := s.status.extractLsb' 1 1

/-- `STATUS` bits 7:2, hardwired to 0 (R32). -/
def State.statusReserved (s : State) : BitVec 6 := s.status.extractLsb' 2 6

/-- `STATUS.ERRCODE`, bits 15:8 (R32). -/
def State.errcode (s : State) : Byte := s.status.extractLsb' 8 8

end Sys2Proof.Machine
end

