-- ==== Sys2Proof/Syntax.lean ====
section
/-! DEFINITION. The instructions: one constructor per row of spec/opcode_table.json, in the table's order. -/

namespace Sys2Proof

/-- The four formats of the opcode table (its "format" column): where a row's words are met. -/
inductive Format where
  /-- A host command, met at the command port (30_encoding.md R85). -/
  | cmd
  /-- A READ command seen by its selector (R88). -/
  | readSel
  /-- The fixed header, met at offset 0 of a DECODE operand (R71, R72). -/
  | wireHeader
  /-- A descriptor byte, met at a descriptor position of a DECODE operand (R83). -/
  | wireDesc
  deriving DecidableEq, Repr

/-- One constructor per row of the opcode table. -/
inductive Instr where
  -- Format CMD (R85)
  /-- `01 n:32 bytes[n]` (R161). -/
  | decode (operand : Bytes)
  /-- `02` (R164). -/
  | encode
  /-- `03` (R166). -/
  | clear
  /-- `10 t:8` (R167). -/
  | setType (t : Byte)
  /-- `11 c:8` (R168). -/
  | setCode (c : Byte)
  /-- `12 m:16` (R169). -/
  | setMid (m : BitVec 16)
  /-- `13 k:8 bytes[k]` (R170). -/
  | setToken (token : Bytes)
  /-- `14 num:32 L:32 bytes[L]` (R171). -/
  | addOption (num : BitVec 32) (val : Bytes)
  /-- `15 L:32 bytes[L]` (R172). -/
  | setPayload (payload : Bytes)
  /-- `20 sel:8 idx:32` (R173). -/
  | read (sel : Byte) (idx : BitVec 32)
  /-- A 1-byte command of a reserved opcode (R87, R174). -/
  | reservedOpcode (op : Byte)
  -- Format READ-SEL (R88): a READ command, by its selector; `idx` is used by OPT_NUM and OPT_VAL only
  /-- `20 00 idx:32`. -/
  | readVer (idx : BitVec 32)
  /-- `20 01 idx:32`. -/
  | readType (idx : BitVec 32)
  /-- `20 02 idx:32`. -/
  | readTkl (idx : BitVec 32)
  /-- `20 03 idx:32`. -/
  | readCode (idx : BitVec 32)
  /-- `20 04 idx:32`. -/
  | readMid (idx : BitVec 32)
  /-- `20 05 idx:32`. -/
  | readToken (idx : BitVec 32)
  /-- `20 06 idx:32`. -/
  | readOptCount (idx : BitVec 32)
  /-- `20 07 idx:32`. -/
  | readOptNum (idx : BitVec 32)
  /-- `20 08 idx:32`. -/
  | readOptVal (idx : BitVec 32)
  /-- `20 09 idx:32`. -/
  | readPayload (idx : BitVec 32)
  /-- `20 0A idx:32`. -/
  | readStatus (idx : BitVec 32)
  /-- `20 0B idx:32`. -/
  | readOutLen (idx : BitVec 32)
  /-- `20 0C idx:32`. -/
  | readOut (idx : BitVec 32)
  /-- `20 sel idx:32` with `sel` in 0x0D to 0xFF (R173). -/
  | readReserved (sel : Byte) (idx : BitVec 32)
  -- Format WIRE-HEADER (R71, R72)
  /-- The four header bytes: version, type, token length, code, message id. -/
  | hdr (ver : BitVec 2) (type : BitVec 2) (tkl : BitVec 4) (code : Byte) (mid : BitVec 16)
  -- Format WIRE-DESC (R83): a descriptor byte, its literal nibbles as operands
  /-- 0xFF (R125). -/
  | sentinel
  /-- Delta nibble `d` and length nibble `l`, both 0 to 12 (R126). -/
  | optLL (d l : BitVec 4)
  /-- Delta nibble `d` in 0 to 12, length nibble 13. -/
  | optLB (d : BitVec 4)
  /-- Delta nibble `d` in 0 to 12, length nibble 14. -/
  | optLW (d : BitVec 4)
  /-- Delta nibble 13, length nibble `l` in 0 to 12. -/
  | optBL (l : BitVec 4)
  /-- 0xDD. -/
  | optBB
  /-- 0xDE. -/
  | optBW
  /-- Delta nibble 14, length nibble `l` in 0 to 12. -/
  | optWL (l : BitVec 4)
  /-- 0xED. -/
  | optWB
  /-- 0xEE. -/
  | optWW
  /-- Delta nibble 15, length nibble `l` in 0 to 14 (R124). -/
  | optRD (l : BitVec 4)
  /-- Length nibble 15, delta nibble `d` in 0 to 14 (R124). -/
  | optRL (d : BitVec 4)
  deriving DecidableEq, Repr

/-- The table's format of each row. -/
def Instr.format : Instr → Format
  | .decode _ | .encode | .clear | .setType _ | .setCode _ | .setMid _ | .setToken _ | .addOption _ _ | .setPayload _
  | .read _ _ | .reservedOpcode _ => .cmd
  | .readVer _ | .readType _ | .readTkl _ | .readCode _ | .readMid _ | .readToken _ | .readOptCount _ | .readOptNum _
  | .readOptVal _ | .readPayload _ | .readStatus _ | .readOutLen _ | .readOut _ | .readReserved _ _ => .readSel
  | .hdr _ _ _ _ _ => .wireHeader
  | .sentinel | .optLL _ _ | .optLB _ | .optLW _ | .optBL _ | .optBB | .optBW | .optWL _ | .optWB | .optWW
  | .optRD _ | .optRL _ => .wireDesc

end Sys2Proof
end

