-- ==== Sys2Proof/WellFormed.lean ====
section
/-! DEFINITION. Which terms of `Instr` stand for an instruction: the operand ranges of spec 30_encoding.md R83, R86,
R87 and R88. -/

namespace Sys2Proof

/-- The ten opcodes of R85; every other value is reserved (R87). -/
def isCommandOpcode (op : Byte) : Bool :=
  op.toNat ∈ [0x01, 0x02, 0x03, 0x10, 0x11, 0x12, 0x13, 0x14, 0x15, 0x20]

/-- The operands are in the ranges their fields can carry (R86) or their row admits (R83, R87, R88).
A byte sequence after a 32-bit length is shorter than 2^32 and one after an 8-bit length shorter than 2^8;
a field with no check in the spec is legal at every value. -/
def Instr.wellFormed : Instr → Bool
  | .decode bs => bs.length < 2 ^ 32
  | .setToken bs => bs.length < 2 ^ 8
  | .addOption _ bs => bs.length < 2 ^ 32
  | .setPayload bs => bs.length < 2 ^ 32
  | .reservedOpcode op => !isCommandOpcode op
  | .readReserved sel _ => 0x0C < sel.toNat
  | .optLL d l => d.toNat ≤ 12 && l.toNat ≤ 12
  | .optLB d => d.toNat ≤ 12
  | .optLW d => d.toNat ≤ 12
  | .optBL l => l.toNat ≤ 12
  | .optWL l => l.toNat ≤ 12
  | .optRD l => l.toNat ≤ 14
  | .optRL d => d.toNat ≤ 14
  | .encode | .clear | .setType _ | .setCode _ | .setMid _ | .read _ _ => true
  | .readVer _ | .readType _ | .readTkl _ | .readCode _ | .readMid _ | .readToken _ | .readOptCount _ | .readOptNum _
  | .readOptVal _ | .readPayload _ | .readStatus _ | .readOutLen _ | .readOut _ => true
  | .hdr _ _ _ _ _ => true
  | .sentinel | .optBB | .optBW | .optWB | .optWW => true

end Sys2Proof
end

