-- ==== Sys2Proof/Decode.lean ====
section
/-! DEFINITION. The decoder, total on any bytes, for the four formats of the opcode table, and the encoder written from
the same tables (spec 30_encoding.md R70 to R88). The byte-order and bit-field helpers stand here too. -/

namespace Sys2Proof

/-! ## Bit fields and byte order (R7, R53, R54) -/

/-- `b[7:4]`. -/
def hiNibble (b : Byte) : BitVec 4 := b.extractLsb' 4 4

/-- `b[3:0]`. -/
def loNibble (b : Byte) : BitVec 4 := b.extractLsb' 0 4

/-- The byte whose fields are `hi` in bits 7:4 and `lo` in bits 3:0. -/
def ofNibbles (hi lo : BitVec 4) : Byte := hi ++ lo

/-- `be16` as a 16-bit word (R9, R53). -/
def word16 (a b : Byte) : BitVec 16 := a ++ b

/-- `be32` as a 32-bit word (R9, R53). -/
def word32 (a b c d : Byte) : BitVec 32 := a ++ b ++ c ++ d

/-- A 16-bit integer as two bytes, big-endian (R53). -/
def bytes16 (v : BitVec 16) : Bytes := [v.extractLsb' 8 8, v.extractLsb' 0 8]

/-- A 32-bit integer as four bytes, big-endian (R53). -/
def bytes32 (v : BitVec 32) : Bytes :=
  [v.extractLsb' 24 8, v.extractLsb' 16 8, v.extractLsb' 8 8, v.extractLsb' 0 8]

/-! ## Operand fields of a command (R86) -/

/-- A field `x:8` at the front of the operands. -/
def take8 : Bytes → Option (Byte × Bytes)
  | a :: rest => some (a, rest)
  | _ => none

/-- A field `x:16`, big-endian. -/
def take16 : Bytes → Option (BitVec 16 × Bytes)
  | a :: b :: rest => some (word16 a b, rest)
  | _ => none

/-- A field `x:32`, big-endian. -/
def take32 : Bytes → Option (BitVec 32 × Bytes)
  | a :: b :: c :: d :: rest => some (word32 a b c d, rest)
  | _ => none

/-- A field `bytes[k]`, copied verbatim. -/
def takeBytes (k : Nat) (bs : Bytes) : Option (Bytes × Bytes) :=
  if bs.length < k then none else some (bs.take k, bs.drop k)

/-! ## Format CMD -/

/-- The operands that opcode `op` lays out (R85), and the bytes after them; `none` when the stream ends inside them.
An opcode not listed is a reserved opcode with no operands (R87). -/
def decodeOperands (op : Byte) (bs : Bytes) : Option (Instr × Bytes) :=
  match op.toNat with
  | 0x01 =>
    match take32 bs with
    | none => none
    | some (n, bs) =>
      match takeBytes n.toNat bs with
      | none => none
      | some (v, rest) => some (.decode v, rest)
  | 0x02 => some (.encode, bs)
  | 0x03 => some (.clear, bs)
  | 0x10 =>
    match take8 bs with
    | none => none
    | some (t, rest) => some (.setType t, rest)
  | 0x11 =>
    match take8 bs with
    | none => none
    | some (c, rest) => some (.setCode c, rest)
  | 0x12 =>
    match take16 bs with
    | none => none
    | some (m, rest) => some (.setMid m, rest)
  | 0x13 =>
    match take8 bs with
    | none => none
    | some (k, bs) =>
      match takeBytes k.toNat bs with
      | none => none
      | some (v, rest) => some (.setToken v, rest)
  | 0x14 =>
    match take32 bs with
    | none => none
    | some (num, bs) =>
      match take32 bs with
      | none => none
      | some (n, bs) =>
        match takeBytes n.toNat bs with
        | none => none
        | some (v, rest) => some (.addOption num v, rest)
  | 0x15 =>
    match take32 bs with
    | none => none
    | some (n, bs) =>
      match takeBytes n.toNat bs with
      | none => none
      | some (v, rest) => some (.setPayload v, rest)
  | 0x20 =>
    match take8 bs with
    | none => none
    | some (sel, bs) =>
      match take32 bs with
      | none => none
      | some (idx, rest) => some (.read sel idx, rest)
  | _ => some (.reservedOpcode op, bs)

/-- What stands at the front of the command port. -/
inductive PortRead where
  /-- A whole command, and the bytes after it. -/
  | command (i : Instr) (rest : Bytes)
  /-- Nothing waits. -/
  | empty
  /-- The bytes end inside the command's operands (decision D26). -/
  | truncated
  deriving DecidableEq, Repr

/-- Decode the next command: "The block's decoder reads the opcode byte first. The opcode then fixes the layout and
length of the operands" (R85). -/
def decodeCommand : Bytes → PortRead
  | [] => .empty
  | op :: bs =>
    match decodeOperands op bs with
    | none => .truncated
    | some (i, rest) => .command i rest

/-! ## Format READ-SEL -/

/-- The row of a READ command with selector `sel` (R88, R173). -/
def selectRow (sel : Byte) (idx : BitVec 32) : Instr :=
  match sel.toNat with
  | 0x00 => .readVer idx
  | 0x01 => .readType idx
  | 0x02 => .readTkl idx
  | 0x03 => .readCode idx
  | 0x04 => .readMid idx
  | 0x05 => .readToken idx
  | 0x06 => .readOptCount idx
  | 0x07 => .readOptNum idx
  | 0x08 => .readOptVal idx
  | 0x09 => .readPayload idx
  | 0x0A => .readStatus idx
  | 0x0B => .readOutLen idx
  | 0x0C => .readOut idx
  | _ => .readReserved sel idx

/-- Decode the bytes of a READ command to the row of its selector. -/
def decodeReadSel (bs : Bytes) : Option (Instr × Bytes) :=
  match decodeCommand bs with
  | .command (.read sel idx) rest => some (selectRow sel idx, rest)
  | _ => none

/-! ## Formats WIRE-HEADER and WIRE-DESC -/

/-- The four header bytes (R71, R72, R101); `none` for a shorter buffer. -/
def decodeHeader : Bytes → Option (Instr × Bytes)
  | b0 :: b1 :: b2 :: b3 :: rest =>
    some (.hdr (b0.extractLsb' 6 2) (b0.extractLsb' 4 2) (b0.extractLsb' 0 4) b1 (word16 b2 b3), rest)
  | _ => none

/-- The extension class of a nibble (R76). -/
inductive NibbleClass where
  /-- 0 to 12: literal. -/
  | L
  /-- 13: one extension byte. -/
  | B
  /-- 14: two extension bytes. -/
  | W
  /-- 15: reserved. -/
  | R
  deriving DecidableEq, Repr

/-- R76. -/
def nibbleClass (v : BitVec 4) : NibbleClass :=
  if v.toNat ≤ 12 then .L else if v.toNat = 13 then .B else if v.toNat = 14 then .W else .R

/-- The class of a byte met at a descriptor position: "The sentinel test comes first" (R83). -/
def decodeDesc (b : Byte) : Instr :=
  if b = 0xFF then .sentinel
  else
    match nibbleClass (hiNibble b), nibbleClass (loNibble b) with
    | .R, _ => .optRD (loNibble b)
    | .L, .L => .optLL (hiNibble b) (loNibble b)
    | .L, .B => .optLB (hiNibble b)
    | .L, .W => .optLW (hiNibble b)
    | .L, .R => .optRL (hiNibble b)
    | .B, .L => .optBL (loNibble b)
    | .B, .B => .optBB
    | .B, .W => .optBW
    | .B, .R => .optRL (hiNibble b)
    | .W, .L => .optWL (loNibble b)
    | .W, .B => .optWB
    | .W, .W => .optWW
    | .W, .R => .optRL (hiNibble b)

/-- The decoder of each format: the instruction at the front of the bytes, and the bytes after it. -/
def decodeAs (f : Format) (bs : Bytes) : Option (Instr × Bytes) :=
  match f with
  | .cmd =>
    match decodeCommand bs with
    | .command i rest => some (i, rest)
    | _ => none
  | .readSel => decodeReadSel bs
  | .wireHeader => decodeHeader bs
  | .wireDesc =>
    match bs with
    | b :: rest => some (decodeDesc b, rest)
    | [] => none

/-! ## The encoder -/

/-- A byte sequence after its 32-bit length (R86). -/
def sized32 (bs : Bytes) : Bytes := bytes32 (BitVec.ofNat 32 bs.length) ++ bs

/-- A READ command (R85). -/
def readBytes (sel : Byte) (idx : BitVec 32) : Bytes := 0x20 :: sel :: bytes32 idx

/-- The bytes of an instruction: for a command R85 and R86, for a READ row R88, for the header R71 and R72,
for a descriptor class R83. -/
def encode : Instr → Bytes
  | .decode bs => 0x01 :: sized32 bs
  | .encode => [0x02]
  | .clear => [0x03]
  | .setType t => [0x10, t]
  | .setCode c => [0x11, c]
  | .setMid m => 0x12 :: bytes16 m
  | .setToken bs => 0x13 :: BitVec.ofNat 8 bs.length :: bs
  | .addOption num bs => 0x14 :: (bytes32 num ++ sized32 bs)
  | .setPayload bs => 0x15 :: sized32 bs
  | .read sel idx => readBytes sel idx
  | .reservedOpcode op => [op]
  | .readVer idx => readBytes 0x00 idx
  | .readType idx => readBytes 0x01 idx
  | .readTkl idx => readBytes 0x02 idx
  | .readCode idx => readBytes 0x03 idx
  | .readMid idx => readBytes 0x04 idx
  | .readToken idx => readBytes 0x05 idx
  | .readOptCount idx => readBytes 0x06 idx
  | .readOptNum idx => readBytes 0x07 idx
  | .readOptVal idx => readBytes 0x08 idx
  | .readPayload idx => readBytes 0x09 idx
  | .readStatus idx => readBytes 0x0A idx
  | .readOutLen idx => readBytes 0x0B idx
  | .readOut idx => readBytes 0x0C idx
  | .readReserved sel idx => readBytes sel idx
  | .hdr ver type tkl code mid => (ver ++ type ++ tkl : Byte) :: code :: bytes16 mid
  | .sentinel => [0xFF]
  | .optLL d l => [ofNibbles d l]
  | .optLB d => [ofNibbles d 13]
  | .optLW d => [ofNibbles d 14]
  | .optBL l => [ofNibbles 13 l]
  | .optBB => [ofNibbles 13 13]
  | .optBW => [ofNibbles 13 14]
  | .optWL l => [ofNibbles 14 l]
  | .optWB => [ofNibbles 14 13]
  | .optWW => [ofNibbles 14 14]
  | .optRD l => [ofNibbles 15 l]
  | .optRL d => [ofNibbles d 15]

/-! ## The words of the opcode table -/

/-- The first `k` bytes of a word numbered as the opcode table numbers it: the first byte is bits 7:0. -/
def wordBytes : Nat → Nat → Bytes
  | 0, _ => []
  | k + 1, w => BitVec.ofNat 8 w :: wordBytes k (w / 256)

/-- Which format's row a word of the table is read as (log 8): the table numbers the words of its four formats alike.
32 bits are the header row; 16 bits that begin with 0x20 are a selector row; otherwise the first byte decides: one of the
ten command opcodes is a command, a byte with a nibble of 13 or more is a descriptor, a lower byte up to 0x20 is a
reserved opcode, and the rest are descriptors of class OPT.LL. -/
def tableFormat (nbits w : Nat) : Format :=
  let b : Byte := BitVec.ofNat 8 w
  if nbits = 32 then .wireHeader
  else if nbits = 16 && b = 0x20 then .readSel
  else if isCommandOpcode b then .cmd
  else if 13 ≤ (hiNibble b).toNat || 13 ≤ (loNibble b).toNat then .wireDesc
  else if b.toNat ≤ 0x20 then .cmd
  else .wireDesc

/-- How many bytes of `bytes[n]` a command asks for whose given bytes are `bs`, the bytes not given being zero. -/
def tableTail (bs : Bytes) : Nat :=
  let field (k : Nat) : Nat :=
    match take32 ((bs ++ List.replicate 9 0).drop k) with
    | some (n, _) => n.toNat
    | none => 0
  match bs with
  | [] => 0
  | op :: operands =>
    match op.toNat with
    | 0x01 | 0x15 => field 1
    | 0x13 =>
      match operands with
      | k :: _ => k.toNat
      | [] => 0
    | 0x14 => field 5
    | _ => 0

/-- Zero bytes put after the bytes of a table word: the longest fixed operands, and the byte sequence after them
(log 8). -/
def tablePad (bs : Bytes) : Bytes := List.replicate (8 + tableTail bs) 0

/-- The instruction the decoder reads from an instruction whose bits are `w`, in the numbering of
spec/opcode_table.json; operand bytes the row gives no bits are zero. -/
def decodeTableWord (nbits w : Nat) : Option Instr :=
  let bytes := wordBytes (nbits / 8) w
  match decodeAs (tableFormat nbits w) (bytes ++ tablePad bytes) with
  | some (i, _) => some i
  | none => none

end Sys2Proof
end

