-- ==== Sys2Proof/Machine/Operands.lean ====
section
/-! DEFINITION. The operand forms of an option entry: bounds-checked reads of IN (spec 20_memory.md R51), the extension
scheme in both directions (30_encoding.md R76 to R78, 41_option_codec.md R120 to R124, R133). -/

namespace Sys2Proof.Machine

/-- `MemRead(addr, k)`: the bytes at offsets `addr` to `addr + k - 1` (20 R51). Its callers check the bound first. -/
def memRead (buf : Bytes) (addr k : Nat) : Bytes := (buf.drop addr).take k

/-- `MemReadU(addr, k)`: the same bytes as a big-endian unsigned integer (00 R10, 20 R51). -/
def memReadU (buf : Bytes) (addr k : Nat) : Nat :=
  (memRead buf addr k).foldl (fun acc b => acc * 256 + b.toNat) 0

/-- `MemWrite(addr, k, v)` with `k = |v|`: `v` replaces the bytes at offsets `addr` to `addr + k - 1` (20 R52). -/
def memWrite (buf : Bytes) (addr : Nat) (v : Bytes) : Bytes :=
  buf.take addr ++ v ++ buf.drop (addr + v.length)

/-- A way to resolve a nibble into a delta or length: from `IN` and the cursor to the value and the cursor after it. -/
abbrev Resolver := Bytes → Nat → Except Err (Nat × Nat)

/-- Class L: "the value is the nibble itself, and no byte is consumed" (R121). -/
def resolveL (v : BitVec 4) : Resolver := fun _ pos => .ok (v.toNat, pos)

/-- Class B: 13 plus the next byte (R122). -/
def resolveB : Resolver := fun inBuf pos =>
  if inBuf.length - pos < 1 then .error .truncatedOption
  else .ok (13 + memReadU inBuf pos 1, pos + 1)

/-- Class W: 269 plus the next two bytes, big-endian (R123). -/
def resolveW : Resolver := fun inBuf pos =>
  if inBuf.length - pos < 2 then .error .truncatedOption
  else .ok (269 + memReadU inBuf pos 2, pos + 2)

/-- Class R: always invalid (R124). -/
def resolveR : Resolver := fun _ _ => .error .reservedLengthField

/-- `EXT_RESOLVE`: resolve a nibble by its class (R120). -/
def extResolve (v : BitVec 4) : Resolver :=
  match nibbleClass v with
  | .L => resolveL v
  | .B => resolveB
  | .W => resolveW
  | .R => resolveR

/-- `xlen(v)`: how many extension bytes `v` takes (R78). -/
def xlen (v : Nat) : Nat := if v ≤ 12 then 0 else if v ≤ 268 then 1 else 2

/-- `EXT_ENCODE`: the nibble and the extension bytes of `v` (R133). -/
def extEncode (v : Nat) : Except Err (BitVec 4 × Bytes) :=
  if v ≤ 12 then .ok (BitVec.ofNat 4 v, [])
  else if v ≤ 268 then .ok (13, [BitVec.ofNat 8 (v - 13)])
  else if v ≤ 65804 then .ok (14, [BitVec.ofNat 8 ((v - 269) >>> 8), BitVec.ofNat 8 ((v - 269) &&& 0xFF)])
  else .error .valueTooLarge

end Sys2Proof.Machine
end

