-- ==== Sys2Proof/Machine/Ops.lean ====
section
/-! DEFINITION. The shared operations: how a command ends, successfully or with an error, and the codec operations of
spec files 40_header_codec.md and 41_option_codec.md, in the order of their pseudocode. -/

namespace Sys2Proof.Machine

/-! ## Read-only views of the MRF -/

/-- `VER`: hardwired to 1 (10 R23). -/
def State.ver (_ : State) : BitVec 2 := 1

/-- `TKL`: always `|TOKEN|`, as the byte READ returns and the header field carries (10 R27). -/
def State.tkl (s : State) : Byte := BitVec.ofNat 8 s.mrf.token.length

/-- The four message types, in the source's listing order (10 R24, decision D23). -/
inductive MsgType where
  | confirmable
  | nonConfirmable
  | acknowledgement
  | reset
  deriving DecidableEq, Repr

/-- The name of a `TYPE` value; no rule of the block reads it (10 R24). -/
def msgType (t : BitVec 2) : MsgType :=
  match t.toNat with
  | 0 => .confirmable
  | 1 => .nonConfirmable
  | 2 => .acknowledgement
  | _ => .reset

/-! ## How a command ends (00 R11, R12; 10 R33; 42 R160; 60 R204) -/

/-- The block gives the host a response (00 R12). -/
def State.respond (e : Option Err) (data : Bytes) (s : State) : State :=
  { s with responses := ⟨e, data⟩ :: s.responses }

/-- A non-READ command ends: STATUS is updated and the response given (10 R33); with an error this is all the command
does to the state it started from (00 R11). -/
def State.complete (e : Option Err) (s : State) : State :=
  State.respond e [] { s with status := statusWord e }

/-- A command runs only when no other does (70 R233). -/
def whenIdle (s : State) (r : Result) : Result :=
  match s.work with
  | .idle => r
  | .decoding _ => .fault .overlappingCommand

/-- Run a non-READ command whose pseudocode gives `r`: on success its writes are committed, on an error none of them
(42 R160, 00 R11). -/
def runCommand (s : State) (r : Except Err State) : Result :=
  whenIdle s (.next (match r with
    | .ok s' => s'.complete none
    | .error e => s.complete (some e)))

/-- Run a READ whose pseudocode gives `r`: only the response is written (42 R173). -/
def runRead (s : State) (r : Except Err Bytes) : Result :=
  whenIdle s (.next (match r with
    | .ok data => s.respond none data
    | .error e => s.respond (some e) []))

/-! ## Header codec (file 40) -/

/-- The fields HDR_PARSE returns. -/
structure Header where
  type : BitVec 2
  tkl : BitVec 4
  code : Byte
  mid : BitVec 16
  deriving DecidableEq, Repr

/-- The checks of HDR_PARSE in their order, on a buffer of `n` bytes: length, then version, then token length
(R100, R102). -/
def hdrCheck (n : Nat) (ver : BitVec 2) (h : Header) : Except Err Header :=
  if n < 4 then .error .bufferTooShort
  else if ver ≠ 1 then .error .unsupportedVersion
  else if h.tkl.toNat > 8 then .error .invalidTokenLength
  else .ok h

/-- `HDR_PARSE` (R100, R101). -/
def hdrParse (inBuf : Bytes) : Except Err Header :=
  match decodeHeader inBuf with
  | some (.hdr ver type tkl code mid, _) => hdrCheck inBuf.length ver { type, tkl, code, mid }
  | _ => .error .bufferTooShort

/-- `TOKEN_EXTRACT`: the token and the cursor after it (R103). -/
def tokenExtract (inBuf : Bytes) (tkl : Nat) : Except Err (Bytes × Nat) :=
  if inBuf.length - 4 < tkl then .error .truncatedToken
  else .ok (memRead inBuf 4 tkl, 4 + tkl)

/-- `HDR_PACK`: write the header and the token; returns the buffer and the next write offset (R104). -/
def hdrPack (x : Message) (buf : Bytes) : Bytes × Nat :=
  let buf := memWrite buf 0 [BitVec.ofNat 8 ((1 <<< 6) ||| (x.type.toNat <<< 4) ||| x.token.length)]
  let buf := memWrite buf 1 [x.code]
  let buf := memWrite buf 2 [BitVec.ofNat 8 (x.mid.toNat >>> 8), BitVec.ofNat 8 (x.mid.toNat &&& 0xFF)]
  let buf := memWrite buf 4 x.token
  (buf, 4 + x.token.length)

/-! ## Option codec, decode side (file 41) -/

/-- `OPT_ENTRY_DECODE` from the byte after the descriptor on, with the descriptor's two nibbles as resolvers: delta first,
then length, the value, and the number-overflow check (R126, R127, R128). Returns the record, the cursor and the running
option number. -/
def entryBody (delta len : Resolver) (inBuf : Bytes) (pos : Nat) (num : BitVec 32) :
    Except Err (Opt × Nat × BitVec 32) := do
  let (d, pos) ← delta inBuf pos
  let (l, pos) ← len inBuf pos
  if inBuf.length - pos < l then .error .truncatedOption
  else if num.toNat + d > 0xFFFFFFFF then .error .numberOverflow
  else
    let num := BitVec.ofNat 32 (num.toNat + d)
    .ok (⟨num, memRead inBuf pos l⟩, pos + l, num)

/-- `OPT_ENTRY_DECODE`, the descriptor byte at `pos` (R126). -/
def optEntryDecode (inBuf : Bytes) (pos : Nat) (num : BitVec 32) : Except Err (Opt × Nat × BitVec 32) :=
  let d : Byte := BitVec.ofNat 8 (memReadU inBuf pos 1)
  entryBody (extResolve (hiNibble d)) (extResolve (loNibble d)) inBuf (pos + 1) num

/-- Append a decoded record: `CapacityExceeded` when it would be entry number `OPT_MAX + 1` (R129). -/
def appendOpt (cfg : Config) (opts : List Opt) (rec : Opt) : Except Err (List Opt) :=
  if cfg.optMax = some opts.length then .error .capacityExceeded
  else .ok (opts ++ [rec])

/-- `OPT_SEQ_DECODE` (R129, R125, R130, R131). The first argument bounds the turns of the loop by the bytes left,
`n - pos`: each turn consumes at least one byte, so when it is 0 the buffer is exhausted. -/
def optSeqDecode (cfg : Config) : Nat → Bytes → Nat → BitVec 32 → List Opt → Except Err (List Opt × Bytes)
  | 0, _, _, _, opts => .ok (opts, [])
  | turns + 1, inBuf, pos, num, opts =>
    if pos = inBuf.length then .ok (opts, [])
    else if memReadU inBuf pos 1 = 0xFF then .ok (opts, memRead inBuf (pos + 1) (inBuf.length - pos - 1))
    else do
      let (rec, pos, num) ← optEntryDecode inBuf pos num
      let opts ← appendOpt cfg opts rec
      optSeqDecode cfg turns inBuf pos num opts

/-- What DECODE decodes from its operand (42 R161 to R163). -/
def decodeMessage (cfg : Config) (inBuf : Bytes) : Except Err Message :=
  if fits cfg.msgMax inBuf.length = false then .error .capacityExceeded
  else do
    let h ← hdrParse inBuf
    let (token, pos) ← tokenExtract inBuf h.tkl.toNat
    let (opts, payload) ←
      if pos = inBuf.length then .ok ([], [])
      else optSeqDecode cfg (inBuf.length - pos) inBuf pos 0 []
    .ok { type := h.type, code := h.code, mid := h.mid, token, opts, payload }

/-! ## Option codec, encode side (file 41) -/

/-- `OPT_ENTRY_ENCODE`: write one entry at `pos`; returns the buffer and the next write offset (R135, R137). -/
def optEntryEncode (delta : Nat) (val : Bytes) (buf : Bytes) (pos : Nat) : Except Err (Bytes × Nat) := do
  let (dn, dx) ← extEncode delta
  let (ln, lx) ← extEncode val.length
  let buf := memWrite buf pos [ofNibbles dn ln]
  let pos := pos + 1
  let buf := memWrite buf pos dx
  let pos := pos + dx.length
  let buf := memWrite buf pos lx
  let pos := pos + lx.length
  let buf := memWrite buf pos val
  .ok (buf, pos + val.length)

/-- The option loop of BODY_ENCODE, `prev` the running previous number (R136). -/
def optsEncode : List Opt → Nat → Bytes → Nat → Except Err (Bytes × Nat)
  | [], _, buf, pos => .ok (buf, pos)
  | o :: opts, prev, buf, pos => do
    let (buf, pos) ← optEntryEncode (o.num.toNat - prev) o.val buf pos
    optsEncode opts o.num.toNat buf pos

/-- `BODY_ENCODE`: the options, then the sentinel and the payload if there is one (R136). -/
def bodyEncode (x : Message) (buf : Bytes) (pos : Nat) : Except Err (Bytes × Nat) := do
  let (buf, pos) ← optsEncode x.opts 0 buf pos
  if x.payload.length > 0 then
    let buf := memWrite buf pos [0xFF]
    let buf := memWrite buf (pos + 1) x.payload
    .ok (buf, pos + 1 + x.payload.length)
  else .ok (buf, pos)

/-- The option loop of SIZE: the bytes the options take, each delta and then each length checked (R138, R165). -/
def sizeOpts : List Opt → Nat → Nat → Except Err Nat
  | [], _, size => .ok size
  | o :: opts, prev, size =>
    if o.num.toNat - prev > 65804 then .error .valueTooLarge
    else if o.val.length > 65804 then .error .valueTooLarge
    else sizeOpts opts o.num.toNat (size + 1 + xlen (o.num.toNat - prev) + xlen o.val.length + o.val.length)

/-- `SIZE` (R138). -/
def sizeOf (x : Message) : Except Err Nat := do
  let size ← sizeOpts x.opts 0 (4 + x.token.length)
  .ok (if x.payload.length > 0 then size + 1 + x.payload.length else size)

/-- What ENCODE writes to OUT (42 R164, R165). The working buffer has exactly `size` bytes; what it holds before it is
written cannot be observed, since every byte is written (20 R52; log 12). -/
def encodeMessage (cfg : Config) (x : Message) : Except Err Bytes := do
  let size ← sizeOf x
  if fits cfg.msgMax size = false then .error .capacityExceeded
  else
    let (buf, pos) := hdrPack x (List.replicate size 0)
    let (buf, _) ← bodyEncode x buf pos
    .ok buf

/-! ## The MRF value store (10 R30; 42 R171, R172) -/

/-- `sum(|r.VAL| for r in OPTS)`. -/
def valueBytes (opts : List Opt) : Nat := (opts.map (fun o => o.val.length)).sum

/-- Insert a record after every record whose number is at most `num`: the index is the count of those records (R171). -/
def insertOpt (opts : List Opt) (num : BitVec 32) (val : Bytes) : List Opt :=
  let i := opts.countP (fun r => r.num.toNat ≤ num.toNat)
  opts.take i ++ [⟨num, val⟩] ++ opts.drop i

/-! ## A DECODE in progress (10 R35; log 5) -/

/-- The working variables of a DECODE of `inBuf` when it starts: they "start fresh at each command" (10 R35). -/
def DecodeWork.start (inBuf : Bytes) : DecodeWork :=
  { inBuf, pos := 0, stage := .header, num := 0, msg := Message.default }

/-- The state in which a DECODE of `inBuf` has passed its first check (42 R162) and stands before the header. -/
def State.beginDecode (s : State) (inBuf : Bytes) : State :=
  { s with work := .decoding (DecodeWork.start inBuf) }

/-- DECODE ends with an error: its working variables are discarded and nothing is committed (42 R161). -/
def State.failDecode (e : Err) (s : State) : State := State.complete (some e) { s with work := .idle }

/-- DECODE ends with success: the message is committed to the MRF (42 R161). -/
def State.commitDecode (m : Message) (s : State) : State := State.complete none { s with work := .idle, mrf := m }

/-- Run a wire unit of a DECODE in progress, met at stage `at_`: `f` gives the state after it, or the error that ends the
DECODE. -/
def inDecode (s : State) (at_ : Stage) (f : DecodeWork → Except Err State) : Result :=
  match s.work with
  | .idle => .fault .wireUnitOutOfPlace
  | .decoding w =>
    if w.stage = at_ then
      .next (match f w with
        | .ok s' => s'
        | .error e => s.failDecode e)
    else .fault .wireUnitOutOfPlace

/-- An option entry whose descriptor byte is at the cursor, its nibbles given as resolvers: decode it, append it and move
the cursor past it (R126, R129). -/
def entryUnit (delta len : Resolver) (s : State) : Result :=
  inDecode s .options fun w => do
    let (rec, pos, num) ← entryBody delta len w.inBuf (w.pos + 1) w.num
    let opts ← appendOpt s.cfg w.msg.opts rec
    .ok { s with work := .decoding { w with pos, num, msg := { w.msg with opts } } }

/-! ## Fetching -/

/-- What a DECODE in progress does next. -/
inductive WireFetch where
  /-- It meets this unit. -/
  | unit (i : Instr)
  /-- It ends with this error before any unit is met. -/
  | fail (e : Err)
  /-- The buffer is exhausted at a descriptor position: the option sequence ends, the payload absent (R130, 42 R163). -/
  | finish
  deriving DecidableEq, Repr

/-- The next unit of a DECODE in progress: the header first, which needs four bytes (R100), then one descriptor byte at
each descriptor position until the buffer is exhausted (R129). -/
def wireFetch (w : DecodeWork) : WireFetch :=
  match w.stage with
  | .header =>
    match decodeHeader w.inBuf with
    | some (i, _) => .unit i
    | none => .fail .bufferTooShort
  | .options =>
    match w.inBuf[w.pos]? with
    | some b => .unit (decodeDesc b)
    | none => .finish

/-! ## Placing a table word (logs 2 and 8) -/

/-- How many bytes follow a descriptor byte in its entry when they are all zero: the extension bytes of both nibbles, and
the value whose length they give (30 R76, R79). -/
def descTail (b : Byte) : Nat :=
  let ext (v : BitVec 4) : Nat := match nibbleClass v with | .B => 1 | .W => 2 | .L | .R => 0
  let len (v : BitVec 4) : Nat := match nibbleClass v with | .L => v.toNat | .B => 13 | .W => 269 | .R => 0
  match decodeDesc b with
  | .sentinel => 0
  | .optRD _ => 0
  | _ => ext (hiNibble b) + ext (loNibble b) + len (loNibble b)

/-- `s` with the bytes of a table word where a step fetches them: at the command port of an idle block, at the start of a
DECODE, or at the first descriptor position of one (an empty token, no options yet). Operand bytes the word does not give
are zero, as many as the instruction has. -/
def State.placeWord (s : State) (nbits w : Nat) : State :=
  let bytes := wordBytes (nbits / 8) w
  match tableFormat nbits w with
  | .cmd | .readSel =>
    let padded := bytes ++ tablePad bytes
    match decodeCommand padded with
    | .command _ rest => { s with work := .idle, input := padded.take (padded.length - rest.length) }
    | _ => { s with work := .idle, input := padded }
  | .wireHeader =>
    let token := List.replicate (loNibble (BitVec.ofNat 8 w)).toNat 0
    { s with work := .decoding (DecodeWork.start (bytes ++ token)) }
  | .wireDesc =>
    let inBuf := [0x40, 0x00, 0x00, 0x00] ++ bytes ++ List.replicate (descTail (BitVec.ofNat 8 w)) 0
    { s with work := .decoding { DecodeWork.start inBuf with pos := 4, stage := .options } }

end Sys2Proof.Machine
end

