-- ==== Sys2Proof/Machine/Commands.lean ====
section
/-! DEFINITION. The meanings of the host commands but READ (spec 42_message_commands.md), each one atomic transition. -/

namespace Sys2Proof.Machine

/-- DECODE: replace the MRF with the message decoded from the operand (R161). -/
def execDecode (operand : Bytes) (s : State) : Result :=
  runCommand s (do
    let m ← decodeMessage s.cfg operand
    .ok { s with mrf := m })

/-- ENCODE: write the wire encoding of the MRF into OUT (R164). -/
def execEncode (s : State) : Result :=
  runCommand s (do
    let out ← encodeMessage s.cfg s.mrf
    .ok { s with out })

/-- CLEAR: set the MRF to the default message (R166). -/
def execClear (s : State) : Result := runCommand s (.ok { s with mrf := Message.default })

/-- SET_TYPE (R167). -/
def execSetType (t : Byte) (s : State) : Result :=
  runCommand s (if t.toNat > 3 then .error .invalidType
    else .ok { s with mrf := { s.mrf with type := t.setWidth 2 } })

/-- SET_CODE (R168). -/
def execSetCode (c : Byte) (s : State) : Result := runCommand s (.ok { s with mrf := { s.mrf with code := c } })

/-- SET_MID (R169). -/
def execSetMid (m : BitVec 16) (s : State) : Result := runCommand s (.ok { s with mrf := { s.mrf with mid := m } })

/-- SET_TOKEN (R170). -/
def execSetToken (token : Bytes) (s : State) : Result :=
  runCommand s (if token.length > 8 then .error .tokenTooLong
    else .ok { s with mrf := { s.mrf with token } })

/-- ADD_OPTION: the count bound, then the store bound, then the insertion (R171, 60 R203). -/
def execAddOption (num : BitVec 32) (val : Bytes) (s : State) : Result :=
  runCommand s (if s.cfg.optMax = some s.mrf.opts.length then .error .capacityExceeded
    else if fits s.cfg.storeMax (valueBytes s.mrf.opts + s.mrf.payload.length + val.length) = false then
      .error .capacityExceeded
    else .ok { s with mrf := { s.mrf with opts := insertOpt s.mrf.opts num val } })

/-- SET_PAYLOAD (R172). -/
def execSetPayload (payload : Bytes) (s : State) : Result :=
  runCommand s (if fits s.cfg.storeMax (valueBytes s.mrf.opts + payload.length) = false then .error .capacityExceeded
    else .ok { s with mrf := { s.mrf with payload } })

/-- A reserved opcode: nothing changes but STATUS (R174). -/
def execReservedOpcode (_op : Byte) (s : State) : Result := runCommand s (.error .illegalCommand)

end Sys2Proof.Machine
end

