-- ==== Sys2Proof/Machine/Header.lean ====
section
/-! DEFINITION. The meaning of the header row (spec 40_header_codec.md), met at the start of a DECODE in progress. -/

namespace Sys2Proof.Machine

/-- HDR: HDR_PARSE's checks on the four bytes, then TOKEN_EXTRACT (R100 to R103). -/
def execHdr (ver type : BitVec 2) (tkl : BitVec 4) (code : Byte) (mid : BitVec 16) (s : State) : Result :=
  inDecode s .header fun w => do
    let h ← hdrCheck w.inBuf.length ver { type, tkl, code, mid }
    let (token, pos) ← tokenExtract w.inBuf h.tkl.toNat
    .ok { s with
      work := .decoding
        { w with pos, stage := .options, msg := { w.msg with type := h.type, code := h.code, mid := h.mid, token } } }

end Sys2Proof.Machine
end

