-- ==== Sys2Proof/Machine/Options.lean ====
section
/-! DEFINITION. The meanings of the descriptor rows (spec 41_option_codec.md, 30_encoding.md R83), met at a descriptor
position of a DECODE in progress: the sentinel, and one option entry by the classes of its two nibbles. -/

namespace Sys2Proof.Machine

/-- SENTINEL: the option sequence ends, the payload is every byte after it, and the DECODE commits (R125, 42 R161). -/
def execSentinel (s : State) : Result :=
  inDecode s .options fun w =>
    .ok (s.commitDecode { w.msg with payload := memRead w.inBuf (w.pos + 1) (w.inBuf.length - w.pos - 1) })

/-- OPT.LL: delta literal, length literal (R121, R126). -/
def execOptLL (d l : BitVec 4) (s : State) : Result := entryUnit (resolveL d) (resolveL l) s

/-- OPT.LB: delta literal, length in one extension byte (R121, R122, R126). -/
def execOptLB (d : BitVec 4) (s : State) : Result := entryUnit (resolveL d) resolveB s

/-- OPT.LW: delta literal, length in two extension bytes (R121, R123, R126). -/
def execOptLW (d : BitVec 4) (s : State) : Result := entryUnit (resolveL d) resolveW s

/-- OPT.BL: delta in one extension byte, length literal (R122, R121, R126). -/
def execOptBL (l : BitVec 4) (s : State) : Result := entryUnit resolveB (resolveL l) s

/-- OPT.BB: delta and length in one extension byte each (R122, R126). -/
def execOptBB (s : State) : Result := entryUnit resolveB resolveB s

/-- OPT.BW: delta in one extension byte, length in two (R122, R123, R126). -/
def execOptBW (s : State) : Result := entryUnit resolveB resolveW s

/-- OPT.WL: delta in two extension bytes, length literal (R123, R121, R126). -/
def execOptWL (l : BitVec 4) (s : State) : Result := entryUnit resolveW (resolveL l) s

/-- OPT.WB: delta in two extension bytes, length in one (R123, R122, R126). -/
def execOptWB (s : State) : Result := entryUnit resolveW resolveB s

/-- OPT.WW: delta and length in two extension bytes each (R123, R126). -/
def execOptWW (s : State) : Result := entryUnit resolveW resolveW s

/-- OPT.RD: delta nibble 15, rejected "before any extension byte or the length nibble is looked at" (R124). -/
def execOptRD (l : BitVec 4) (s : State) : Result := entryUnit resolveR (extResolve l) s

/-- OPT.RL: length nibble 15, rejected after the delta and its extension bytes are resolved (R124). -/
def execOptRL (d : BitVec 4) (s : State) : Result := entryUnit (extResolve d) resolveR s

end Sys2Proof.Machine
end

