-- ==== Sys2Proof/Machine/Read.lean ====
section
/-! DEFINITION. The meanings of the READ rows (spec 30_encoding.md R88, 42_message_commands.md R173): each returns a field
of the state and writes nothing but the response. -/

namespace Sys2Proof.Machine

/-- READ.VER: `[0x01]`. -/
def execReadVer (_idx : BitVec 32) (s : State) : Result := runRead s (.ok [s.ver.setWidth 8])

/-- READ.TYPE: `[TYPE]`. -/
def execReadType (_idx : BitVec 32) (s : State) : Result := runRead s (.ok [s.mrf.type.setWidth 8])

/-- READ.TKL: `[|TOKEN|]`. -/
def execReadTkl (_idx : BitVec 32) (s : State) : Result := runRead s (.ok [s.tkl])

/-- READ.CODE: `[CODE]`. -/
def execReadCode (_idx : BitVec 32) (s : State) : Result := runRead s (.ok [s.mrf.code])

/-- READ.MID: `MID` as 2 bytes. -/
def execReadMid (_idx : BitVec 32) (s : State) : Result := runRead s (.ok (bytes16 s.mrf.mid))

/-- READ.TOKEN: `TOKEN`. -/
def execReadToken (_idx : BitVec 32) (s : State) : Result := runRead s (.ok s.mrf.token)

/-- A length as 4 bytes; a length that does not fit them has no stated result, and the free value `wide` stands for it
(log 10). -/
def lengthBytes (wide : Nat → BitVec 32) (n : Nat) : Bytes :=
  bytes32 (if n < 2 ^ 32 then BitVec.ofNat 32 n else wide n)

/-- READ.OPT_COUNT: `|OPTS|` as 4 bytes. -/
def execReadOptCount (_idx : BitVec 32) (s : State) : Result :=
  runRead s (.ok (lengthBytes Config.wideOptCount s.mrf.opts.length))

/-- A field of the option record `idx`: `IllegalCommand` when `idx >= |OPTS|` (R173). -/
def optField (s : State) (idx : BitVec 32) (f : Opt → Bytes) : Except Err Bytes :=
  match s.mrf.opts[idx.toNat]? with
  | some o => .ok (f o)
  | none => .error .illegalCommand

/-- READ.OPT_NUM: `OPTS[idx].NUM` as 4 bytes. -/
def execReadOptNum (idx : BitVec 32) (s : State) : Result := runRead s (optField s idx fun o => bytes32 o.num)

/-- READ.OPT_VAL: `OPTS[idx].VAL`. -/
def execReadOptVal (idx : BitVec 32) (s : State) : Result := runRead s (optField s idx fun o => o.val)

/-- READ.PAYLOAD: `PAYLOAD`. -/
def execReadPayload (_idx : BitVec 32) (s : State) : Result := runRead s (.ok s.mrf.payload)

/-- READ.STATUS: `STATUS` as 2 bytes. -/
def execReadStatus (_idx : BitVec 32) (s : State) : Result := runRead s (.ok (bytes16 s.status))

/-- READ.OUT_LEN: `|OUT|` as 4 bytes. -/
def execReadOutLen (_idx : BitVec 32) (s : State) : Result :=
  runRead s (.ok (lengthBytes Config.wideOutLen s.out.length))

/-- READ.OUT: `OUT`. -/
def execReadOut (_idx : BitVec 32) (s : State) : Result := runRead s (.ok s.out)

/-- READ.RESERVED: `IllegalCommand` in the response only (R173). -/
def execReadReserved (_sel : Byte) (_idx : BitVec 32) (s : State) : Result := runRead s (.error .illegalCommand)

/-- READ: the row of its selector (R88, R173; log 9). -/
def execRead (sel : Byte) (idx : BitVec 32) (s : State) : Result :=
  match sel.toNat with
  | 0x00 => execReadVer idx s
  | 0x01 => execReadType idx s
  | 0x02 => execReadTkl idx s
  | 0x03 => execReadCode idx s
  | 0x04 => execReadMid idx s
  | 0x05 => execReadToken idx s
  | 0x06 => execReadOptCount idx s
  | 0x07 => execReadOptNum idx s
  | 0x08 => execReadOptVal idx s
  | 0x09 => execReadPayload idx s
  | 0x0A => execReadStatus idx s
  | 0x0B => execReadOutLen idx s
  | 0x0C => execReadOut idx s
  | _ => execReadReserved sel idx s

end Sys2Proof.Machine
end

