-- ==== Sys2Proof/Machine/Dispatch.lean ====
section
/-! DEFINITION. One arm per constructor of `Instr`, each one direct call of its meaning. -/

namespace Sys2Proof.Machine

def exec (i : Instr) (s : State) : Host.Outcome State Fault Refusal :=
  match i with
  | .decode operand => Sys2Proof.Machine.execDecode operand s
  | .encode => Sys2Proof.Machine.execEncode s
  | .clear => Sys2Proof.Machine.execClear s
  | .setType t => Sys2Proof.Machine.execSetType t s
  | .setCode c => Sys2Proof.Machine.execSetCode c s
  | .setMid m => Sys2Proof.Machine.execSetMid m s
  | .setToken token => Sys2Proof.Machine.execSetToken token s
  | .addOption num val => Sys2Proof.Machine.execAddOption num val s
  | .setPayload payload => Sys2Proof.Machine.execSetPayload payload s
  | .read sel idx => Sys2Proof.Machine.execRead sel idx s
  | .reservedOpcode op => Sys2Proof.Machine.execReservedOpcode op s
  | .readVer idx => Sys2Proof.Machine.execReadVer idx s
  | .readType idx => Sys2Proof.Machine.execReadType idx s
  | .readTkl idx => Sys2Proof.Machine.execReadTkl idx s
  | .readCode idx => Sys2Proof.Machine.execReadCode idx s
  | .readMid idx => Sys2Proof.Machine.execReadMid idx s
  | .readToken idx => Sys2Proof.Machine.execReadToken idx s
  | .readOptCount idx => Sys2Proof.Machine.execReadOptCount idx s
  | .readOptNum idx => Sys2Proof.Machine.execReadOptNum idx s
  | .readOptVal idx => Sys2Proof.Machine.execReadOptVal idx s
  | .readPayload idx => Sys2Proof.Machine.execReadPayload idx s
  | .readStatus idx => Sys2Proof.Machine.execReadStatus idx s
  | .readOutLen idx => Sys2Proof.Machine.execReadOutLen idx s
  | .readOut idx => Sys2Proof.Machine.execReadOut idx s
  | .readReserved sel idx => Sys2Proof.Machine.execReadReserved sel idx s
  | .hdr ver type tkl code mid => Sys2Proof.Machine.execHdr ver type tkl code mid s
  | .sentinel => Sys2Proof.Machine.execSentinel s
  | .optLL d l => Sys2Proof.Machine.execOptLL d l s
  | .optLB d => Sys2Proof.Machine.execOptLB d s
  | .optLW d => Sys2Proof.Machine.execOptLW d s
  | .optBL l => Sys2Proof.Machine.execOptBL l s
  | .optBB => Sys2Proof.Machine.execOptBB s
  | .optBW => Sys2Proof.Machine.execOptBW s
  | .optWL l => Sys2Proof.Machine.execOptWL l s
  | .optWB => Sys2Proof.Machine.execOptWB s
  | .optWW => Sys2Proof.Machine.execOptWW s
  | .optRD l => Sys2Proof.Machine.execOptRD l s
  | .optRL d => Sys2Proof.Machine.execOptRL d s

end Sys2Proof.Machine
end

