-- ==== Sys2Proof/Machine/Step.lean ====
section
/-! DEFINITION. One step: the next command at the port (spec 42_message_commands.md R160), or, in a state with a DECODE in
progress, its next wire unit (log 5). -/

namespace Sys2Proof.Machine

/-- One step. An idle block takes the next command whole (30 R85) and executes it; a stream that is empty or ends inside a
command is refused (logs 2 and 3). A DECODE in progress executes its next unit, or ends. -/
def step (s : State) : Host.Outcome State Fault Refusal :=
  match s.work with
  | .idle =>
    match decodeCommand s.input with
    | .command i rest => exec i { s with input := rest }
    | .empty => .refused .noCommand
    | .truncated => .refused .truncatedCommand
  | .decoding w =>
    match wireFetch w with
    | .unit i => exec i s
    | .fail e => .next (s.failDecode e)
    | .finish => .next (s.commitDecode w.msg)

/-- `s` with an instruction of the opcode table where the next step fetches it (logs 2 and 8). -/
def State.withFetchWord (s : State) (nbits w : Nat) : State := s.placeWord nbits w

end Sys2Proof.Machine
end

