-- ==== Sys2Proof/Safety.lean ====
section
/-! DEFINITION. The terms claims are stated in: the invariants of spec 10_state.md, the wire format of 30_encoding.md R70
to R84 as a grammar (written from the format's tables, not from the decoder), and several instances side by side. -/

namespace Sys2Proof.Machine

/-! ## Invariants (10 R27, R29, R30, R32, R34) -/

/-- The option numbers are non-decreasing along the sequence (R29). -/
abbrev NumsSorted (opts : List Opt) : Prop := opts.Pairwise (fun a b => a.num.toNat ≤ b.num.toNat)

/-- A message the MRF may hold: the token bound (R27), the order of the options (R29) and the capacities (R30). -/
structure Message.Wf (cfg : Config) (m : Message) : Prop where
  token : m.token.length ≤ 8
  sorted : NumsSorted m.opts
  optCount : fits cfg.optMax m.opts.length = true
  store : fits cfg.storeMax (valueBytes m.opts + m.payload.length) = true

/-- The fields of STATUS are legal (R32): the reserved bits 0, the code 0 to 12, and "`ERR = 1` exactly when
`ERRCODE ≠ 0`". -/
structure State.StatusWf (s : State) : Prop where
  reserved : s.statusReserved = 0
  err : s.err = 1 ↔ s.errcode ≠ 0
  code : s.errcode.toNat ≤ 12

/-- The working variables of a DECODE in progress: fresh at its start; afterwards the cursor inside IN, the message under
construction legal, its numbers at most the running number, and its value bytes among those already passed. -/
structure DecodeWork.Wf (cfg : Config) (w : DecodeWork) : Prop where
  inBuf : fits cfg.msgMax w.inBuf.length = true
  fresh : w.stage = .header → w = DecodeWork.start w.inBuf
  cursor : w.pos ≤ w.inBuf.length
  token : w.msg.token.length ≤ 8
  sorted : NumsSorted w.msg.opts
  running : ∀ o ∈ w.msg.opts, o.num.toNat ≤ w.num.toNat
  optCount : fits cfg.optMax w.msg.opts.length = true
  values : valueBytes w.msg.opts ≤ w.pos
  payload : w.msg.payload = []

/-- The invariant of the block. -/
structure State.Inv (s : State) : Prop where
  cfg : s.cfg.wf = true
  mrf : s.mrf.Wf s.cfg
  status : s.StatusWf
  out : fits s.cfg.msgMax s.out.length = true
  work : ∀ w, s.work = .decoding w → w.Wf s.cfg

/-! ## The wire format (30 R70 to R84) -/

/-- A nibble, its extension bytes, and the value they stand for: the table of R76. -/
inductive ExtForm : BitVec 4 → Bytes → Nat → Prop where
  | literal (v : BitVec 4) (h : v.toNat ≤ 12) : ExtForm v [] v.toNat
  | byte (e : Byte) : ExtForm 13 [e] (13 + e.toNat)
  | word (e1 e2 : Byte) : ExtForm 14 [e1, e2] (269 + (e1.toNat * 256 + e2.toNat))

/-- A run of option entries, the number before it being `prev`: each entry is its descriptor byte, the delta's extension,
the length's extension and the value (R74), and its number is the previous one plus its delta (R128). -/
inductive Entries : Nat → Bytes → List Opt → Prop where
  | nil (prev : Nat) : Entries prev [] []
  | cons (prev delta : Nat) (num : BitVec 32) (dn ln : BitVec 4) (dx lx val rest : Bytes) (opts : List Opt)
      (hd : ExtForm dn dx delta) (hl : ExtForm ln lx val.length) (hn : num.toNat = prev + delta)
      (hr : Entries num.toNat rest opts) :
      Entries prev (ofNibbles dn ln :: (dx ++ lx ++ val ++ rest)) (⟨num, val⟩ :: opts)

/-- The four header bytes of a message (R71, R72): version 1, the type, the token length, the code, the message id. -/
def headerBytes (m : Message) : Bytes :=
  [(1#2 ++ m.type ++ BitVec.ofNat 4 m.token.length : Byte), m.code, m.mid.extractLsb' 8 8, m.mid.extractLsb' 0 8]

/-- `b` is the header, the token (0 to 8 bytes) and the option entries of `m`, and then `tail` (R70). -/
def WireForm (m : Message) (tail b : Bytes) : Prop :=
  m.token.length ≤ 8 ∧ ∃ body, Entries 0 body m.opts ∧ b = headerBytes m ++ m.token ++ body ++ tail

/-- `b` is a message on the wire: what follows the options is nothing, the payload absent, or the sentinel and the payload,
which may be empty (R70, 41 R130, R131). -/
def MessageForm (m : Message) (b : Bytes) : Prop :=
  (m.payload = [] ∧ WireForm m [] b) ∨ WireForm m (0xFF :: m.payload) b

/-- `b` is the form the encoder emits: sentinel and payload "only when the payload is non-empty" (R70, 41 R136). -/
def EncoderForm (m : Message) (b : Bytes) : Prop :=
  WireForm m (if m.payload = [] then [] else 0xFF :: m.payload) b

/-- `b` ends in a sentinel with an empty payload (R84). -/
def TrailingSentinelForm (m : Message) (b : Bytes) : Prop := m.payload = [] ∧ WireForm m [0xFF] b

/-- Every option's delta and value length is at most 65804 (41 R134), the number before the run being `prev`. -/
def Representable : Nat → List Opt → Prop
  | _, [] => True
  | prev, o :: opts => o.num.toNat - prev ≤ 65804 ∧ o.val.length ≤ 65804 ∧ Representable o.num.toNat opts

/-- The bytes the options take on the wire (30 R79, 41 R135). -/
def optionBytes : Nat → List Opt → Nat
  | _, [] => 0
  | prev, o :: opts =>
    1 + xlen (o.num.toNat - prev) + xlen o.val.length + o.val.length + optionBytes o.num.toNat opts

/-- The size of the encoding of `m` (41 R138). -/
def wireSize (m : Message) : Nat :=
  4 + m.token.length + optionBytes 0 m.opts + (if m.payload = [] then 0 else 1 + m.payload.length)

/-! ## The state a command leaves -/

/-- `t` with the success of a non-READ command recorded: STATUS 0x0001 and the response `(0, [])` (10 R33, 42 R160). -/
def State.afterSuccess (t : State) : State :=
  { t with status := 0x0001, responses := ⟨none, []⟩ :: t.responses }

/-- `s` with the error of a non-READ command recorded: STATUS holds the code with ERR and DONE set, the response is
`(code, [])`, and nothing else changes (00 R11, 10 R33). -/
def State.afterError (s : State) (e : Err) : State :=
  { s with status := errCode (some e) ++ 0x03#8, responses := ⟨some e, []⟩ :: s.responses }

/-- `s` after a READ that returns `data`: only the response is written (42 R173). -/
def State.afterRead (s : State) (data : Bytes) : State := { s with responses := ⟨none, data⟩ :: s.responses }

/-- `s` after a READ that reports `IllegalCommand` "in READ's response only" (42 R173). -/
def State.afterBadRead (s : State) : State := { s with responses := ⟨some .illegalCommand, []⟩ :: s.responses }

/-- `s` in mid-DECODE after an entry with this delta, this many extension bytes and this value (41 R126, R129). -/
def State.afterEntry (s : State) (w : DecodeWork) (delta ext : Nat) (val : Bytes) : State :=
  { s with
    work := .decoding
      { w with
        pos := w.pos + 1 + ext + val.length
        num := BitVec.ofNat 32 (w.num.toNat + delta)
        msg := { w.msg with opts := w.msg.opts ++ [⟨BitVec.ofNat 32 (w.num.toNat + delta), val⟩] } } }

/-- A DECODE in progress stands at a descriptor position. -/
def AtDescriptor (s : State) (w : DecodeWork) : Prop := s.work = .decoding w ∧ w.stage = .options

/-- A DECODE in progress stands at a descriptor whose following bytes are `bytes`; adding `delta` does not overflow the
running option number (41 R128) and the MRF has room for one more entry (41 R129). -/
def AtEntry (s : State) (w : DecodeWork) (delta : Nat) (bytes : Bytes) : Prop :=
  AtDescriptor s w ∧ w.inBuf.drop (w.pos + 1) = bytes ∧ w.num.toNat + delta ≤ 0xFFFFFFFF ∧
    s.cfg.optMax ≠ some w.msg.opts.length

/-! ## History and instances (10 R20, 20 R64, 60 R208) -/

/-- An idle block with the parameters, MRF, STATUS and OUT of `s` and no history: nothing at its port, no response
given. -/
def State.alone (s : State) : State := { s with work := .idle, input := [], responses := [] }

/-- The block `a` with these bytes at its port and these responses given before its own. -/
def State.atPorts (a : State) (input : Bytes) (earlier : List Response) : State :=
  { a with input, responses := a.responses ++ earlier }

/-- One step of instance `k` of a bank of instances. That a bank is a list of states, one for each instance, is the form
the model gives to "Separate instances of the block have separate state" (60 R208, log 14). -/
def bankStep (bank : List State) (k : Nat) : Host.Outcome (List State) Fault Refusal :=
  match bank[k]? with
  | none => .next bank
  | some s =>
    match step s with
    | .next t => .next (bank.set k t)
    | .fault f => .fault f
    | .refused r => .refused r

end Sys2Proof.Machine
end

