-- ==== Sys2Proof/Certificates/Slice0/Obligations.lean ====
section
/-! DEFINITION. The statements for the provers, from the numbered rules of spec/. Each docstring names the rule it
formalises; a clause that rests on a choice of the model names its log entry. -/

open Sys2Proof Sys2Proof.Machine

/-! ## Encodings (30_encoding.md) -/

/-- Files 30 (R71, R72, R83, R85 to R88): decoding the encoding of any well-formed instruction gives it back, whatever
follows it. The command layouts are the spec's own (decisions D3, D4, D5). -/
def Obligations.EncodedInstructionDecodesBack : Prop :=
  ∀ (i : Instr) (rest : Bytes), i.wellFormed = true → decodeAs i.format (encode i ++ rest) = some (i, rest)

/-- R85, R86 (layouts of the spec's own decisions D3 to D5): a command read at the port is well formed, and its bytes
and the bytes left are exactly those that stood there: no byte is dropped and no byte of a field is ignored. -/
def Obligations.CommandDecodingLosesNothing : Prop :=
  ∀ (bs : Bytes) (i : Instr) (rest : Bytes), decodeCommand bs = .command i rest →
    i.wellFormed = true ∧ i.format = .cmd ∧ encode i ++ rest = bs

/-- R83 (its byte counts are the spec's own derivation): the class of every byte at a descriptor position, by its two
nibbles. -/
def Obligations.DescriptorByteFallsInItsClass : Prop :=
  ∀ b : Byte,
    let d := b.extractLsb' 4 4
    let l := b.extractLsb' 0 4
    (d = 15 ∧ l = 15 → decodeDesc b = .sentinel) ∧
    (d.toNat ≤ 12 ∧ l.toNat ≤ 12 → decodeDesc b = .optLL d l) ∧
    (d.toNat ≤ 12 ∧ l = 13 → decodeDesc b = .optLB d) ∧
    (d.toNat ≤ 12 ∧ l = 14 → decodeDesc b = .optLW d) ∧
    (d = 13 ∧ l.toNat ≤ 12 → decodeDesc b = .optBL l) ∧
    (d = 13 ∧ l = 13 → decodeDesc b = .optBB) ∧
    (d = 13 ∧ l = 14 → decodeDesc b = .optBW) ∧
    (d = 14 ∧ l.toNat ≤ 12 → decodeDesc b = .optWL l) ∧
    (d = 14 ∧ l = 13 → decodeDesc b = .optWB) ∧
    (d = 14 ∧ l = 14 → decodeDesc b = .optWW) ∧
    (d = 15 ∧ l.toNat ≤ 14 → decodeDesc b = .optRD l) ∧
    (d.toNat ≤ 14 ∧ l = 15 → decodeDesc b = .optRL d)

/-- R71, R72, R83, R85, R86, R88: words written out from the tables decode to the instructions they stand for. -/
def Obligations.WordsWrittenFromTheTablesDecode : Prop :=
  decodeCommand [0x12, 0x01, 0x00, 0x03] = .command (.setMid 256) [0x03] ∧
  decodeCommand [0x14, 0, 0, 0, 5, 0, 0, 0, 3, 0xFF, 0xFE, 0xFD] = .command (.addOption 5 [0xFF, 0xFE, 0xFD]) [] ∧
  decodeCommand [0x20, 0x07, 0, 0, 0, 2] = .command (.read 0x07 2) [] ∧
  decodeCommand [0x55, 0x02] = .command (.reservedOpcode 0x55) [0x02] ∧
  decodeAs .readSel [0x20, 0x0B, 0, 0, 0, 0] = some (.readOutLen 0, []) ∧
  decodeAs .wireHeader [0x52, 0x45, 0x12, 0x34, 0xCA] = some (.hdr 1 1 2 0x45 0x1234, [0xCA]) ∧
  decodeAs .wireDesc [0xD3, 0xFF] = some (.optBL 3, [0xFF]) ∧
  decodeAs .wireDesc [0xFF] = some (.sentinel, [])

/-! ## The extension scheme and the header (30 R76 to R78; 41 R133, R141; 40 R106) -/

/-- R120 to R123: EXT_RESOLVE by the nibble: literal, one extension byte, two extension bytes (big-endian), reserved;
and its result is at most 65804. -/
def Obligations.ExtensionResolvesByItsNibble : Prop :=
  ∀ (v : BitVec 4) (inBuf : Bytes) (pos : Nat),
    (v.toNat ≤ 12 → extResolve v inBuf pos = .ok (v.toNat, pos)) ∧
    (∀ (e : Byte) (rest : Bytes), v = 13 → inBuf.drop pos = e :: rest →
      extResolve v inBuf pos = .ok (13 + e.toNat, pos + 1)) ∧
    (v = 13 → inBuf.length ≤ pos → extResolve v inBuf pos = .error .truncatedOption) ∧
    (∀ (e1 e2 : Byte) (rest : Bytes), v = 14 → inBuf.drop pos = e1 :: e2 :: rest →
      extResolve v inBuf pos = .ok (269 + (e1.toNat * 256 + e2.toNat), pos + 2)) ∧
    (v = 14 → inBuf.length ≤ pos + 1 → extResolve v inBuf pos = .error .truncatedOption) ∧
    (v = 15 → extResolve v inBuf pos = .error .reservedLengthField) ∧
    (∀ r p : Nat, extResolve v inBuf pos = .ok (r, p) → r ≤ 65804)

/-- The spec's own derivation R78: every value up to 65804 has exactly one nibble and extension bytes, EXT_ENCODE gives
them, `xlen` counts them, and no larger value has an encoding. -/
def Obligations.ExtensionEncodingIsUnique : Prop :=
  ∀ v : Nat,
    (v ≤ 65804 → ∃ n x, extEncode v = .ok (n, x) ∧ ExtForm n x v ∧ x.length = xlen v ∧
      ∀ n' x', ExtForm n' x' v → n' = n ∧ x' = x) ∧
    (65804 < v → extEncode v = .error .valueTooLarge ∧ ∀ n x, ¬ ExtForm n x v)

/-- The spec's own derivation R141: EXT_RESOLVE undoes EXT_ENCODE and consumes exactly its bytes, and EXT_ENCODE undoes
EXT_RESOLVE. -/
def Obligations.ExtensionSchemeRoundTrips : Prop :=
  (∀ v : Nat, v ≤ 65804 → ∃ n x, extEncode v = .ok (n, x) ∧
    ∀ before after : Bytes, extResolve n (before ++ x ++ after) before.length = .ok (v, before.length + x.length)) ∧
  (∀ (n : BitVec 4) (inBuf : Bytes) (pos v pos' : Nat), n.toNat ≤ 14 → extResolve n inBuf pos = .ok (v, pos') →
    extEncode v = .ok (n, memRead inBuf pos (pos' - pos)))

/-- R133, and the spec's own derivation R140: EXT_ENCODE never returns nibble 15. -/
def Obligations.EncoderNeverEmitsNibbleFifteen : Prop :=
  ∀ (v : Nat) (n : BitVec 4) (x : Bytes), extEncode v = .ok (n, x) → n.toNat ≤ 14

/-- The spec's own derivation R106: HDR_PARSE and TOKEN_EXTRACT read back what HDR_PACK writes, and HDR_PACK rewrites
what they read. -/
def Obligations.HeaderRoundTrips : Prop :=
  (∀ (m : Message) (buf : Bytes), m.token.length ≤ 8 → 4 + m.token.length ≤ buf.length →
    hdrParse (hdrPack m buf).1 = .ok ⟨m.type, BitVec.ofNat 4 m.token.length, m.code, m.mid⟩ ∧
    tokenExtract (hdrPack m buf).1 m.token.length = .ok (m.token, 4 + m.token.length)) ∧
  (∀ (inBuf : Bytes) (h : Header) (token : Bytes) (pos : Nat) (m : Message),
    hdrParse inBuf = .ok h → tokenExtract inBuf h.tkl.toNat = .ok (token, pos) →
    m.type = h.type → m.code = h.code → m.mid = h.mid → m.token = token → (hdrPack m inBuf).1 = inBuf)

/-! ## Steps -/

/-- R85, R160: when the bytes at the port of an idle block decode to a command, a step takes its bytes and executes it.
The port is the model's own (log 2). -/
def Obligations.StepRunsTheCommandAtThePort : Prop :=
  ∀ (s : State) (i : Instr) (rest : Bytes), s.work = .idle → decodeCommand s.input = .command i rest →
    step s = exec i { s with input := rest }

/-- R100, R129: a step of a DECODE in progress executes the header its operand begins with, or the descriptor at its
cursor. The unit-by-unit view of a DECODE is the model's own (log 5). -/
def Obligations.StepRunsTheWireUnitAtTheCursor : Prop :=
  ∀ (s : State) (w : DecodeWork), s.work = .decoding w →
    (∀ i rest, w.stage = .header → decodeAs .wireHeader w.inBuf = some (i, rest) → step s = exec i s) ∧
    (∀ b, w.stage = .options → w.inBuf[w.pos]? = some b → step s = exec (decodeDesc b) s)

/-- R100 (`BufferTooShort` when `n < 4`), R130 (the first valid end): how a DECODE in progress ends with no unit met
(the unit-by-unit view is the model's own, log 5). -/
def Obligations.DecodeInProgressEndsWithTheBuffer : Prop :=
  ∀ (s : State) (w : DecodeWork), s.work = .decoding w →
    (w.stage = .header → w.inBuf.length < 4 →
      step s = .next (State.afterError { s with work := .idle } .bufferTooShort)) ∧
    (w.stage = .options → w.pos = w.inBuf.length →
      step s = .next (State.afterSuccess { s with work := .idle, mrf := w.msg }))

/-- Decision D26: a stream that ends inside a command's operands is refused. An empty port is refused by the model's own
choice (log 3). -/
def Obligations.TruncatedCommandIsRefused : Prop :=
  ∀ s : State, s.work = .idle →
    (∀ (i : Instr) (k : Nat), i.wellFormed = true → i.format = .cmd → 0 < k → k < (encode i).length →
      s.input = (encode i).take k → step s = .refused .truncatedCommand) ∧
    (s.input = [] → step s = .refused .noCommand)

/-- R233, decision D19: a command issued while a DECODE runs has no move. The second clause is the model's own choice
(log 7): a wire unit has no move outside a DECODE. -/
def Obligations.NoMoveForAnOverlappingCommand : Prop :=
  ∀ (i : Instr) (s : State),
    ((i.format = .cmd ∨ i.format = .readSel) → ∀ w, s.work = .decoding w → exec i s = .fault .overlappingCommand) ∧
    ((i.format = .wireHeader ∨ i.format = .wireDesc) → s.work = .idle → exec i s = .fault .wireUnitOutOfPlace)

/-! ## The mutators, CLEAR and the reserved opcodes (42 R166 to R174) -/

/-- R167: the encoding `10 tt`, the new value of TYPE, and the values it rejects. -/
def Obligations.SetTypeStoresOrRejects : Prop :=
  ∀ (s : State) (t : Byte) (rest : Bytes), s.work = .idle →
    decodeCommand (0x10 :: t :: rest) = .command (.setType t) rest ∧
    (t.toNat ≤ 3 → exec (.setType t) s =
      .next (State.afterSuccess { s with mrf := { s.mrf with type := BitVec.ofNat 2 t.toNat } })) ∧
    (3 < t.toNat → exec (.setType t) s = .next (s.afterError .invalidType))

/-- R168, R169: the encodings `11 cc` and `12 mm mm` (big-endian), and the new values of CODE and MID. -/
def Obligations.SetCodeAndSetMidStoreTheirOperand : Prop :=
  ∀ (s : State) (rest : Bytes), s.work = .idle →
    (∀ c : Byte, decodeCommand (0x11 :: c :: rest) = .command (.setCode c) rest ∧
      exec (.setCode c) s = .next (State.afterSuccess { s with mrf := { s.mrf with code := c } })) ∧
    (∀ m : BitVec 16,
      decodeCommand (0x12 :: BitVec.ofNat 8 (m.toNat / 256) :: BitVec.ofNat 8 (m.toNat % 256) :: rest) =
        .command (.setMid m) rest ∧
      exec (.setMid m) s = .next (State.afterSuccess { s with mrf := { s.mrf with mid := m } }))

/-- R170: the encoding `13 kk` and the token, the new value of TOKEN, and the lengths it rejects. -/
def Obligations.SetTokenStoresOrRejects : Prop :=
  ∀ (s : State) (token rest : Bytes), s.work = .idle →
    (token.length < 256 →
      decodeCommand (0x13 :: BitVec.ofNat 8 token.length :: (token ++ rest)) = .command (.setToken token) rest) ∧
    (token.length ≤ 8 → exec (.setToken token) s =
      .next (State.afterSuccess { s with mrf := { s.mrf with token := token } })) ∧
    (8 < token.length → exec (.setToken token) s = .next (s.afterError .tokenTooLong))

/-- R171 (the bounds are the spec's own decision D12): the count bound, then the store bound, then the insertion after
every record whose number is at most `num`. -/
def Obligations.AddOptionInsertsOrRejects : Prop :=
  ∀ (s : State) (num : BitVec 32) (val : Bytes), s.work = .idle →
    let total := (s.mrf.opts.map (fun r => r.val.length)).sum + s.mrf.payload.length + val.length
    let i := (s.mrf.opts.filter (fun r => decide (r.num.toNat ≤ num.toNat))).length
    (s.cfg.optMax = some s.mrf.opts.length →
      exec (.addOption num val) s = .next (s.afterError .capacityExceeded)) ∧
    ((∃ bound, s.cfg.storeMax = some bound ∧ bound < total) →
      exec (.addOption num val) s = .next (s.afterError .capacityExceeded)) ∧
    (s.cfg.optMax ≠ some s.mrf.opts.length → (∀ bound, s.cfg.storeMax = some bound → total ≤ bound) →
      exec (.addOption num val) s = .next (State.afterSuccess
        { s with mrf := { s.mrf with opts := s.mrf.opts.take i ++ [⟨num, val⟩] ++ s.mrf.opts.drop i } }))

/-- R29, R171: an insertion keeps the numbers non-decreasing, and among the records of one number the new one stands
last and the others keep their order. -/
def Obligations.AddOptionIsSortedAndStable : Prop :=
  ∀ (s t : State) (num : BitVec 32) (val : Bytes), NumsSorted s.mrf.opts →
    exec (.addOption num val) s = .next t → t.status = 0x0001 →
    NumsSorted t.mrf.opts ∧
    ∀ k : BitVec 32, t.mrf.opts.filter (fun r => r.num = k) =
      s.mrf.opts.filter (fun r => r.num = k) ++ (if k = num then [⟨num, val⟩] else [])

/-- R172 (the bound is the spec's own decision D12). -/
def Obligations.SetPayloadStoresOrRejects : Prop :=
  ∀ (s : State) (p : Bytes), s.work = .idle →
    let total := (s.mrf.opts.map (fun r => r.val.length)).sum + p.length
    ((∃ bound, s.cfg.storeMax = some bound ∧ bound < total) →
      exec (.setPayload p) s = .next (s.afterError .capacityExceeded)) ∧
    ((∀ bound, s.cfg.storeMax = some bound → total ≤ bound) →
      exec (.setPayload p) s = .next (State.afterSuccess { s with mrf := { s.mrf with payload := p } }))

/-- R166: the encoding `03`, and the default message. -/
def Obligations.ClearSetsTheDefaultMessage : Prop :=
  ∀ (s : State) (rest : Bytes), s.work = .idle →
    decodeCommand (0x03 :: rest) = .command .clear rest ∧
    exec .clear s = .next (State.afterSuccess
      { s with mrf := { type := 0, code := 0, mid := 0, token := [], opts := [], payload := [] } })

/-- R174 (the spec's own decision D22): a reserved opcode changes nothing except STATUS, which becomes 0x0C03. -/
def Obligations.ReservedOpcodeReportsIllegalCommand : Prop :=
  ∀ (s : State) (op : Byte), s.work = .idle → (Instr.reservedOpcode op).wellFormed = true →
    exec (.reservedOpcode op) s =
      .next { s with status := 0x0C03, responses := ⟨some .illegalCommand, []⟩ :: s.responses }

/-! ## DECODE (42 R161 to R163, files 40 and 41) -/

/-- R161, R70 (`MSG_MAX` and `OPT_MAX` are the spec's own decision D12): DECODE commits a message exactly when the
operand keeps `MSG_MAX`, is that message on the wire, and the message's options keep `OPT_MAX`. -/
def Obligations.DecodeAcceptsExactlyTheWireFormat : Prop :=
  ∀ (s : State) (b : Bytes) (m : Message), s.work = .idle →
    (exec (.decode b) s = .next (State.afterSuccess { s with mrf := m }) ↔
      fits s.cfg.msgMax b.length = true ∧ MessageForm m b ∧ fits s.cfg.optMax m.opts.length = true)

/-- R161, R200, R204 (the codes are the spec's own decisions D7, D11, D12): every DECODE ends with a message, or with
one of its eight errors and nothing else changed; it never raises `InvalidType` or `TokenTooLong`. -/
def Obligations.DecodeEndsInAMessageOrADecodeError : Prop :=
  ∀ (s : State) (b : Bytes), s.work = .idle →
    (∃ m, exec (.decode b) s = .next (State.afterSuccess { s with mrf := m })) ∨
    (∃ e ∈ [Err.bufferTooShort, .unsupportedVersion, .invalidTokenLength, .truncatedToken, .reservedLengthField,
        .truncatedOption, .numberOverflow, .capacityExceeded], exec (.decode b) s = .next (s.afterError e))

/-- R102 (the order of the header checks, the spec's own decision D8), R162 (the operand length before them, decision
D12), and TOKEN_EXTRACT's check after them. -/
def Obligations.DecodeChecksTheHeaderInOrder : Prop :=
  ∀ (s : State) (b : Bytes), s.work = .idle →
    (fits s.cfg.msgMax b.length = false → exec (.decode b) s = .next (s.afterError .capacityExceeded)) ∧
    (fits s.cfg.msgMax b.length = true →
      (b.length < 4 → exec (.decode b) s = .next (s.afterError .bufferTooShort)) ∧
      (∀ (b0 b1 b2 b3 : Byte) (rest : Bytes), b = b0 :: b1 :: b2 :: b3 :: rest →
        (b0.toNat / 64 ≠ 1 → exec (.decode b) s = .next (s.afterError .unsupportedVersion)) ∧
        (b0.toNat / 64 = 1 → 8 < b0.toNat % 16 →
          exec (.decode b) s = .next (s.afterError .invalidTokenLength)) ∧
        (b0.toNat / 64 = 1 → b0.toNat % 16 ≤ 8 → rest.length < b0.toNat % 16 →
          exec (.decode b) s = .next (s.afterError .truncatedToken))))

/-- R163 (`MSG_MAX` is the spec's own decision D12): with no bytes after the token, DECODE gives the message with empty
options and payload. -/
def Obligations.DecodeOfHeaderAndTokenAlone : Prop :=
  ∀ (s : State) (b0 b1 b2 b3 : Byte) (token : Bytes), s.work = .idle → b0.toNat / 64 = 1 →
    token.length = b0.toNat % 16 → token.length ≤ 8 → fits s.cfg.msgMax (4 + token.length) = true →
    exec (.decode (b0 :: b1 :: b2 :: b3 :: token)) s = .next (State.afterSuccess
      { s with mrf :=
        { type := BitVec.ofNat 2 (b0.toNat / 16 % 4), code := b1, mid := BitVec.ofNat 16 (b2.toNat * 256 + b3.toNat),
          token := token, opts := [], payload := [] } })

/-- R124: in a DECODE operand whose header, token and entries so far are well formed, a descriptor with delta nibble 15
is rejected at once, one with length nibble 15 after its delta is resolved; 0xDF at the very end is a truncation. -/
def Obligations.DecodeRejectsAReservedNibble : Prop :=
  ∀ (s : State) (m : Message) (body rest : Bytes) (x : Byte), s.work = .idle → m.token.length ≤ 8 →
    Entries 0 body m.opts → fits s.cfg.optMax m.opts.length = true →
    let b := headerBytes m ++ m.token ++ body ++ x :: rest
    fits s.cfg.msgMax b.length = true →
    (x.toNat / 16 = 15 → x.toNat % 16 ≠ 15 → exec (.decode b) s = .next (s.afterError .reservedLengthField)) ∧
    (∀ (d : BitVec 4) (dx r : Bytes) (delta : Nat), ExtForm d dx delta → x.toNat = d.toNat * 16 + 15 → rest = dx ++ r →
      exec (.decode b) s = .next (s.afterError .reservedLengthField)) ∧
    (x = 0xDF → rest = [] → exec (.decode b) s = .next (s.afterError .truncatedOption))

/-- The spec's own derivation R132: the options that DECODE produces have non-decreasing numbers. -/
def Obligations.DecodedOptionsAreSorted : Prop :=
  ∀ (s t : State) (b : Bytes), exec (.decode b) s = .next t → t.status = 0x0001 → NumsSorted t.mrf.opts

/-! ## ENCODE (42 R164, R165; 41 R133 to R139) -/

/-- R164, and the spec's own derivation R139: ENCODE of a message within the format and `MSG_MAX` replaces OUT by its
wire form, with no sentinel when the payload is empty, exactly SIZE bytes long. -/
def Obligations.EncodeEmitsTheWireFormat : Prop :=
  ∀ s : State, s.work = .idle → s.mrf.token.length ≤ 8 → NumsSorted s.mrf.opts → Representable 0 s.mrf.opts →
    fits s.cfg.msgMax (wireSize s.mrf) = true →
    ∃ out, exec .encode s = .next (State.afterSuccess { s with out := out }) ∧ EncoderForm s.mrf out ∧
      out.length = wireSize s.mrf

/-- R165 (the spec's own decision D13): first the options against 65804, then the total size against `MSG_MAX`; an error
leaves OUT unchanged. -/
def Obligations.EncodeChecksInOrder : Prop :=
  ∀ s : State, s.work = .idle → NumsSorted s.mrf.opts →
    (¬ Representable 0 s.mrf.opts → exec .encode s = .next (s.afterError .valueTooLarge)) ∧
    (Representable 0 s.mrf.opts → fits s.cfg.msgMax (wireSize s.mrf) = false →
      exec .encode s = .next (s.afterError .capacityExceeded))

/-- The spec's own derivation R176: ENCODE directly after a DECODE of a minimal encoding (one without a trailing
sentinel, R84) gives it back. -/
def Obligations.MinimalEncodingRoundTrips : Prop :=
  ∀ (s t : State) (b : Bytes), exec (.decode b) s = .next t → t.status = 0x0001 → ¬ TrailingSentinelForm t.mrf b →
    exec .encode t = .next (State.afterSuccess { t with out := b })

/-- The spec's own derivation R178: ENCODE after a DECODE of a buffer with a trailing sentinel drops that byte. -/
def Obligations.TrailingSentinelIsDropped : Prop :=
  ∀ (s t : State) (b : Bytes), exec (.decode b) s = .next t → t.status = 0x0001 → TrailingSentinelForm t.mrf b →
    exec .encode t = .next (State.afterSuccess { t with out := b.dropLast })

/-- The spec's own derivation R177: DECODE of a successful ENCODE's output leaves the MRF equal to the one encoded. -/
def Obligations.EncodeThenDecodeRestoresTheMessage : Prop :=
  ∀ s t : State, s.Inv → exec .encode s = .next t → t.status = 0x0001 →
    exec (.decode t.out) t = .next (State.afterSuccess { t with mrf := s.mrf }) ∧ t.mrf = s.mrf

/-! ## READ (30 R88, 42 R173) -/

/-- R88 (the spec's own decision D15): what each selector row returns. The clauses for a count or length of 2^32 or more
are the model's (log 10): some four bytes, of which nothing more is said. -/
def Obligations.ReadRowsReturnTheirField : Prop :=
  ∀ (s : State) (idx : BitVec 32), s.work = .idle →
    let be32 (n : Nat) : Bytes :=
      [BitVec.ofNat 8 (n / 2 ^ 24), BitVec.ofNat 8 (n / 2 ^ 16), BitVec.ofNat 8 (n / 2 ^ 8), BitVec.ofNat 8 n]
    let be16 (n : Nat) : Bytes := [BitVec.ofNat 8 (n / 2 ^ 8), BitVec.ofNat 8 n]
    exec (.readVer idx) s = .next (s.afterRead [0x01]) ∧
    exec (.readType idx) s = .next (s.afterRead [BitVec.ofNat 8 s.mrf.type.toNat]) ∧
    exec (.readTkl idx) s = .next (s.afterRead [BitVec.ofNat 8 s.mrf.token.length]) ∧
    exec (.readCode idx) s = .next (s.afterRead [s.mrf.code]) ∧
    exec (.readMid idx) s = .next (s.afterRead (be16 s.mrf.mid.toNat)) ∧
    exec (.readToken idx) s = .next (s.afterRead s.mrf.token) ∧
    (s.mrf.opts.length < 2 ^ 32 → exec (.readOptCount idx) s = .next (s.afterRead (be32 s.mrf.opts.length))) ∧
    (∀ o, s.mrf.opts[idx.toNat]? = some o →
      exec (.readOptNum idx) s = .next (s.afterRead (be32 o.num.toNat)) ∧
      exec (.readOptVal idx) s = .next (s.afterRead o.val)) ∧
    exec (.readPayload idx) s = .next (s.afterRead s.mrf.payload) ∧
    exec (.readStatus idx) s = .next (s.afterRead (be16 s.status.toNat)) ∧
    (s.out.length < 2 ^ 32 → exec (.readOutLen idx) s = .next (s.afterRead (be32 s.out.length))) ∧
    exec (.readOut idx) s = .next (s.afterRead s.out) ∧
    (∃ d : Bytes, d.length = 4 ∧ exec (.readOptCount idx) s = .next (s.afterRead d)) ∧
    (∃ d : Bytes, d.length = 4 ∧ exec (.readOutLen idx) s = .next (s.afterRead d))

/-- R173, R88 (the spec's own decision D15): READ of a reserved selector, or of an option field with the index out of
range, reports `IllegalCommand` in its response only; any other READ returns the bytes of its selector's row. -/
def Obligations.ReadReturnsItsSelectorRow : Prop :=
  ∀ (s : State) (sel : Byte) (idx : BitVec 32), s.work = .idle →
    (0x0C < sel.toNat → exec (.read sel idx) s = .next s.afterBadRead ∧
      exec (.readReserved sel idx) s = .next s.afterBadRead) ∧
    (s.mrf.opts.length ≤ idx.toNat → exec (.read 0x07 idx) s = .next s.afterBadRead ∧
      exec (.read 0x08 idx) s = .next s.afterBadRead ∧
      exec (.readOptNum idx) s = .next s.afterBadRead ∧ exec (.readOptVal idx) s = .next s.afterBadRead) ∧
    (sel.toNat ≤ 0x0C → (sel = 0x07 ∨ sel = 0x08 → idx.toNat < s.mrf.opts.length) →
      ∃ d, exec (.read sel idx) s = .next (s.afterRead d) ∧ exec (selectRow sel idx) s = .next (s.afterRead d))

/-- R59: READ of any selector changes no state, and the same READ again returns the same. -/
def Obligations.ReadChangesNothingAndRepeats : Prop :=
  ∀ (s t : State) (i : Instr), ((∃ sel idx, i = .read sel idx) ∨ i.format = .readSel) → exec i s = .next t →
    ∃ r, t = { s with responses := r :: s.responses } ∧ exec i t = .next { t with responses := r :: t.responses }

/-! ## The wire rows: units of a DECODE in progress (log 5) -/

/-- R100, R103 (the unit view is the model's own, log 5): the header unit, its checks in their order, and the token. -/
def Obligations.HeaderUnitParsesHeaderAndToken : Prop :=
  ∀ (s : State) (w : DecodeWork) (ver type : BitVec 2) (tkl : BitVec 4) (code : Byte) (mid : BitVec 16),
    s.work = .decoding w → w.stage = .header →
    (w.inBuf.length < 4 → exec (.hdr ver type tkl code mid) s =
      .next (State.afterError { s with work := .idle } .bufferTooShort)) ∧
    (4 ≤ w.inBuf.length → ver ≠ 1 → exec (.hdr ver type tkl code mid) s =
      .next (State.afterError { s with work := .idle } .unsupportedVersion)) ∧
    (4 ≤ w.inBuf.length → ver = 1 → 8 < tkl.toNat → exec (.hdr ver type tkl code mid) s =
      .next (State.afterError { s with work := .idle } .invalidTokenLength)) ∧
    (4 ≤ w.inBuf.length → ver = 1 → tkl.toNat ≤ 8 → w.inBuf.length < 4 + tkl.toNat →
      exec (.hdr ver type tkl code mid) s = .next (State.afterError { s with work := .idle } .truncatedToken)) ∧
    (ver = 1 → tkl.toNat ≤ 8 → 4 + tkl.toNat ≤ w.inBuf.length →
      exec (.hdr ver type tkl code mid) s = .next { s with work := .decoding { w with
        pos := 4 + tkl.toNat
        stage := .options
        msg := { w.msg with
          type := type, code := code, mid := mid, token := (w.inBuf.drop 4).take tkl.toNat } } })

/-- R125 (the unit view is the model's own, log 5): the sentinel unit ends the options; the payload is every byte after
it, and the message is committed. -/
def Obligations.SentinelUnitCommitsThePayload : Prop :=
  ∀ (s : State) (w : DecodeWork) (p : Bytes), AtDescriptor s w → w.inBuf.drop w.pos = 0xFF :: p →
    exec .sentinel s = .next (State.afterSuccess { s with work := .idle, mrf := { w.msg with payload := p } })

/-- R126, R121 to R123 (the unit view is the model's own, log 5): each accepted descriptor class appends its option,
with the delta and length its extension bytes give, and moves the cursor past the entry. -/
def Obligations.OptionRowsAppendTheirEntry : Prop :=
  ∀ (s : State) (w : DecodeWork) (val rest : Bytes),
    (∀ d l : BitVec 4, val.length = l.toNat → AtEntry s w d.toNat (val ++ rest) →
      exec (.optLL d l) s = .next (s.afterEntry w d.toNat 0 val)) ∧
    (∀ (d : BitVec 4) (e : Byte), val.length = 13 + e.toNat → AtEntry s w d.toNat (e :: (val ++ rest)) →
      exec (.optLB d) s = .next (s.afterEntry w d.toNat 1 val)) ∧
    (∀ (d : BitVec 4) (e f : Byte), val.length = 269 + (e.toNat * 256 + f.toNat) →
      AtEntry s w d.toNat (e :: f :: (val ++ rest)) →
      exec (.optLW d) s = .next (s.afterEntry w d.toNat 2 val)) ∧
    (∀ (l : BitVec 4) (a : Byte), val.length = l.toNat → AtEntry s w (13 + a.toNat) (a :: (val ++ rest)) →
      exec (.optBL l) s = .next (s.afterEntry w (13 + a.toNat) 1 val)) ∧
    (∀ a e : Byte, val.length = 13 + e.toNat → AtEntry s w (13 + a.toNat) (a :: e :: (val ++ rest)) →
      exec .optBB s = .next (s.afterEntry w (13 + a.toNat) 2 val)) ∧
    (∀ a e f : Byte, val.length = 269 + (e.toNat * 256 + f.toNat) →
      AtEntry s w (13 + a.toNat) (a :: e :: f :: (val ++ rest)) →
      exec .optBW s = .next (s.afterEntry w (13 + a.toNat) 3 val)) ∧
    (∀ (l : BitVec 4) (a c : Byte), val.length = l.toNat →
      AtEntry s w (269 + (a.toNat * 256 + c.toNat)) (a :: c :: (val ++ rest)) →
      exec (.optWL l) s = .next (s.afterEntry w (269 + (a.toNat * 256 + c.toNat)) 2 val)) ∧
    (∀ a c e : Byte, val.length = 13 + e.toNat →
      AtEntry s w (269 + (a.toNat * 256 + c.toNat)) (a :: c :: e :: (val ++ rest)) →
      exec .optWB s = .next (s.afterEntry w (269 + (a.toNat * 256 + c.toNat)) 3 val)) ∧
    (∀ a c e f : Byte, val.length = 269 + (e.toNat * 256 + f.toNat) →
      AtEntry s w (269 + (a.toNat * 256 + c.toNat)) (a :: c :: e :: f :: (val ++ rest)) →
      exec .optWW s = .next (s.afterEntry w (269 + (a.toNat * 256 + c.toNat)) 4 val))

/-- R124 (the unit view is the model's own, log 5): the two reserved descriptor classes; OPT.RL once its delta is
resolved. -/
def Obligations.ReservedDescriptorRowsRejectTheEntry : Prop :=
  ∀ (s : State) (w : DecodeWork), AtDescriptor s w →
    (∀ l : BitVec 4, exec (.optRD l) s =
      .next (State.afterError { s with work := .idle } .reservedLengthField)) ∧
    (∀ (d : BitVec 4) (dx rest : Bytes) (delta : Nat), ExtForm d dx delta → w.inBuf.drop (w.pos + 1) = dx ++ rest →
      exec (.optRL d) s = .next (State.afterError { s with work := .idle } .reservedLengthField))

/-- R127 (its last two steps are the spec's own decision D9; the unit view is the model's own, log 5): the first error
an entry reports, in the fixed order delta, length, value, number, capacity, for every descriptor byte but the sentinel.
-/
def Obligations.EntryReportsItsFirstError : Prop :=
  ∀ (s : State) (w : DecodeWork) (dn ln : BitVec 4), AtDescriptor s w → ¬ (dn = 15 ∧ ln = 15) →
    let i := decodeDesc (ofNibbles dn ln)
    let ends (e : Err) : Prop := exec i s = .next (State.afterError { s with work := .idle } e)
    (dn = 15 → ends .reservedLengthField) ∧
    (dn = 13 → w.inBuf.length < w.pos + 2 → ends .truncatedOption) ∧
    (dn = 14 → w.inBuf.length < w.pos + 3 → ends .truncatedOption) ∧
    (∀ (dx r : Bytes) (delta : Nat), ExtForm dn dx delta → w.inBuf.drop (w.pos + 1) = dx ++ r →
      (ln = 15 → ends .reservedLengthField) ∧
      (ln = 13 → r.length < 1 → ends .truncatedOption) ∧
      (ln = 14 → r.length < 2 → ends .truncatedOption) ∧
      (∀ (lx v : Bytes) (len : Nat), ExtForm ln lx len → r = lx ++ v →
        (v.length < len → ends .truncatedOption) ∧
        (len ≤ v.length → 0xFFFFFFFF < w.num.toNat + delta → ends .numberOverflow) ∧
        (len ≤ v.length → w.num.toNat + delta ≤ 0xFFFFFFFF → s.cfg.optMax = some w.msg.opts.length →
          ends .capacityExceeded)))

/-- R129, R237, R58 (the unit view is the model's own, log 5): running a DECODE unit by unit from its start, by steps,
ends after at most `|IN| + 1` of them in exactly the state the atomic command gives. -/
def Obligations.UnitStepsRefineTheAtomicDecode : Prop :=
  ∀ (s : State) (b : Bytes), s.work = .idle → fits s.cfg.msgMax b.length = true →
    ∃ k, k ≤ b.length + 1 ∧ Host.Core.run Sys2Proof.core k (s.beginDecode b) = exec (.decode b) s

/-- R58, R35 (the unit view is the model's own, log 5): a wire unit changes only the working variables, unless it ends
the DECODE, which then gives its one response. -/
def Obligations.WireUnitsShowNothingUntilTheDecodeEnds : Prop :=
  ∀ (i : Instr) (s t : State), (i.format = .wireHeader ∨ i.format = .wireDesc) → exec i s = .next t →
    (∃ w, t = { s with work := .decoding w }) ∨
    (t.work = .idle ∧ t.out = s.out ∧ t.input = s.input ∧ t.cfg = s.cfg ∧
      ∃ e, t.responses = ⟨e, []⟩ :: s.responses ∧ (e ≠ none → t.mrf = s.mrf))

/-! ## The whole machine -/

/-- R39: the reset values the spec gives, VER and TKL among them; those of OUT and STATUS are the spec's own decision
D16. -/
def Obligations.ResetGivesTheStatedValues : Prop :=
  ∀ c : Config,
    let s := State.resetWith c
    s.ver = 1 ∧ s.mrf.type = 0 ∧ s.mrf.code = 0x00 ∧ s.mrf.mid = 0x0000 ∧ s.mrf.token = [] ∧ s.tkl = 0 ∧
    s.mrf.opts = [] ∧ s.mrf.payload = [] ∧ s.out = [] ∧ s.status = 0x0000 ∧ s.done = 0 ∧ s.err = 0 ∧ s.errcode = 0

/-- The spec's own derivation R231: CLEAR and reset both give the default message; CLEAR leaves OUT and sets STATUS to
0x0001, reset empties both. -/
def Obligations.ClearDiffersFromReset : Prop :=
  ∀ (s : State) (c : Config), s.work = .idle →
    ∃ t, exec .clear s = .next t ∧ t.mrf = (State.resetWith c).mrf ∧ t.out = s.out ∧ t.status = 0x0001 ∧
      (State.resetWith c).out = [] ∧ (State.resetWith c).status = 0x0000

/-- The spec's own derivation R232: nothing needs initialising: ENCODE as the first command after reset gives `40 00 00
00`. -/
def Obligations.FirstEncodeAfterReset : Prop :=
  ∀ c : Config, c.wf = true →
    exec .encode (State.resetWith c) =
      .next (State.afterSuccess { State.resetWith c with out := [0x40, 0x00, 0x00, 0x00] })

/-- R160, R237, R90: every command in an idle block ends in a next state, whatever its operands and the block's
contents. -/
def Obligations.EveryCommandCompletes : Prop :=
  ∀ (i : Instr) (s : State), (i.format = .cmd ∨ i.format = .readSel) → s.work = .idle →
    ∃ t r, exec i s = .next t ∧ t.responses = r :: s.responses ∧ t.work = .idle

/-- R33 (the spec's own decisions D14, D15): at the end of every command except READ, `DONE <- 1; ERRCODE <- code; ERR
<- (code ≠ 0)` for the code of its response; READ never writes STATUS. -/
def Obligations.StatusRecordsEveryCommandButRead : Prop :=
  ∀ (i : Instr) (s t : State), (i.format = .cmd ∨ i.format = .readSel) → exec i s = .next t →
    ((∃ sel idx, i = .read sel idx) ∨ i.format = .readSel → t.status = s.status) ∧
    ((∀ sel idx, i ≠ .read sel idx) → i.format = .cmd →
      ∃ e, t.responses = ⟨e, []⟩ :: s.responses ∧ t.done = 1 ∧ t.errcode = errCode e ∧
        (t.err = 1 ↔ errCode e ≠ 0) ∧ t.statusReserved = 0)

/-- R11, R204: a command that ends with an error commits none of its writes: only STATUS, which records the code unless
the command is a READ (R33), and the response change, and the block is ready for the next command. -/
def Obligations.FailingCommandsCommitNothing : Prop :=
  ∀ (i : Instr) (s t : State) (e : Err) (d : Bytes), (i.format = .cmd ∨ i.format = .readSel) → exec i s = .next t →
    t.responses = ⟨some e, d⟩ :: s.responses →
    t = { s with status := t.status, responses := t.responses } ∧ t.work = .idle ∧ d = [] ∧
    ((∃ sel idx, i = .read sel idx) ∨ i.format = .readSel ∨ t.status = errCode (some e) ++ 0x03#8)

/-- R34: "Only a successful ENCODE writes it". -/
def Obligations.OnlyASuccessfulEncodeWritesOut : Prop :=
  ∀ (i : Instr) (s t : State), exec i s = .next t → (i ≠ .encode ∨ t.status ≠ 0x0001) → t.out = s.out

/-- R38, R28: which commands write each field of the MRF. -/
def Obligations.OnlyTheListedCommandsWriteTheMrf : Prop :=
  ∀ (i : Instr) (s t : State), (i.format = .cmd ∨ i.format = .readSel) → exec i s = .next t →
    (∀ b, i ≠ .decode b) → i ≠ .clear →
    (t.mrf.type = s.mrf.type ∨ ∃ v, i = .setType v) ∧
    (t.mrf.code = s.mrf.code ∨ ∃ v, i = .setCode v) ∧
    (t.mrf.mid = s.mrf.mid ∨ ∃ v, i = .setMid v) ∧
    (t.mrf.token = s.mrf.token ∨ ∃ v, i = .setToken v) ∧
    (t.mrf.opts = s.mrf.opts ∨ ∃ n v, i = .addOption n v) ∧
    (t.mrf.payload = s.mrf.payload ∨ ∃ v, i = .setPayload v)

/-- R20, R12, R58 (the two ports are the model's own, logs 1 and 2): a step never changes the parameters, takes its
bytes from the front of the port, and gives at most one response. -/
def Obligations.StepsKeepParametersAndTakeInputInOrder : Prop :=
  ∀ s t : State, step s = .next t →
    t.cfg = s.cfg ∧ (∃ taken, s.input = taken ++ t.input) ∧
    (t.responses = s.responses ∨ ∃ r, t.responses = r :: s.responses)

/-- R27, R29, R30, R32, R34 (the capacities are the spec's own decision D12, STATUS D14) at reset, for every legal
choice of the parameters. -/
def Obligations.ResetMeetsTheInvariant : Prop :=
  ∀ c : Config, c.wf = true → (State.resetWith c).Inv

/-- R27, R29, R30, R32, R34 (the capacities are the spec's own decision D12, STATUS D14): every step keeps the
invariant: the token bound, the order of the options, the capacities, the legal fields of STATUS, the bound on OUT, and
the working variables of a DECODE in progress. -/
def Obligations.EveryStepKeepsTheInvariant : Prop :=
  ∀ s t : State, s.Inv → step s = .next t → t.Inv

/-- R20, R205: a command's outcome rests on the architectural state alone. A command other than READ gives the same MRF,
the same STATUS and the same response from any two idle blocks with the same parameters and MRF, whatever STATUS, OUT, the
port and the responses given before hold; READ gives the same response when STATUS and OUT agree too. The two ports are
the model's own (logs 1 and 2). -/
def Obligations.CommandsRestOnTheArchitecturalStateAlone : Prop :=
  ∀ (i : Instr) (s s' : State), (i.format = .cmd ∨ i.format = .readSel) → s.work = .idle → s'.work = .idle →
    s.cfg = s'.cfg → s.mrf = s'.mrf →
    ∃ t t' r, exec i s = .next t ∧ exec i s' = .next t' ∧
      ((∀ sel idx, i ≠ .read sel idx) → i.format = .cmd →
        t.mrf = t'.mrf ∧ t.status = t'.status ∧ t.responses = r :: s.responses ∧ t'.responses = r :: s'.responses) ∧
      (s.status = s'.status → s.out = s'.out →
        t.mrf = t'.mrf ∧ t.status = t'.status ∧ t.out = t'.out ∧
          t.responses = r :: s.responses ∧ t'.responses = r :: s'.responses)

/-- R64, R208: "commands to different instances need no coordination". Two idle instances of a bank with a command each at
their ports: both commands complete, in either order, and the bank they leave is the same; in it each of the two is the
block its command leaves when executed alone, with no history and no other instance, and every other instance is as it
was. That instances have no state in common is the form of the bank, a list with one state for each (log 14); the rest
is about the model's step. -/
def Obligations.InstancesAreIndependent : Prop :=
  ∀ (bank : List State) (j k : Nat) (sj sk : State) (ij ik : Instr) (rj rk : Bytes),
    j ≠ k → bank[j]? = some sj → bank[k]? = some sk → sj.work = .idle → sk.work = .idle →
    decodeCommand sj.input = .command ij rj → decodeCommand sk.input = .command ik rk →
    ∃ aj ak bankj bankk both,
      exec ij sj.alone = .next aj ∧ exec ik sk.alone = .next ak ∧
      bankStep bank j = .next bankj ∧ bankStep bankj k = .next both ∧
      bankStep bank k = .next bankk ∧ bankStep bankk j = .next both ∧
      both[j]? = some (aj.atPorts rj sj.responses) ∧ both[k]? = some (ak.atPorts rk sk.responses) ∧
      ∀ l, l ≠ j → l ≠ k → both[l]? = bank[l]?
end

