-- ==== Sys2Proof/Laws/State.lean ====
section
/-! SUPPORT. What each update of the state leaves in each field: one lemma per field per update, true by rfl, and how a
command's end reads as the states that Safety.lean names. -/

namespace Sys2Proof.Machine

@[simp] theorem State.respond_cfg (e : Option Err) (d : Bytes) (s : State) : (s.respond e d).cfg = s.cfg := rfl
@[simp] theorem State.respond_mrf (e : Option Err) (d : Bytes) (s : State) : (s.respond e d).mrf = s.mrf := rfl
@[simp] theorem State.respond_status (e : Option Err) (d : Bytes) (s : State) : (s.respond e d).status = s.status := rfl
@[simp] theorem State.respond_out (e : Option Err) (d : Bytes) (s : State) : (s.respond e d).out = s.out := rfl
@[simp] theorem State.respond_work (e : Option Err) (d : Bytes) (s : State) : (s.respond e d).work = s.work := rfl
@[simp] theorem State.respond_input (e : Option Err) (d : Bytes) (s : State) : (s.respond e d).input = s.input := rfl
@[simp] theorem State.respond_responses (e : Option Err) (d : Bytes) (s : State) : (s.respond e d).responses = ⟨e, d⟩ :: s.responses := rfl

@[simp] theorem State.complete_cfg (e : Option Err) (s : State) : (s.complete e).cfg = s.cfg := rfl
@[simp] theorem State.complete_mrf (e : Option Err) (s : State) : (s.complete e).mrf = s.mrf := rfl
@[simp] theorem State.complete_status (e : Option Err) (s : State) : (s.complete e).status = statusWord e := rfl
@[simp] theorem State.complete_out (e : Option Err) (s : State) : (s.complete e).out = s.out := rfl
@[simp] theorem State.complete_work (e : Option Err) (s : State) : (s.complete e).work = s.work := rfl
@[simp] theorem State.complete_input (e : Option Err) (s : State) : (s.complete e).input = s.input := rfl
@[simp] theorem State.complete_responses (e : Option Err) (s : State) : (s.complete e).responses = ⟨e, []⟩ :: s.responses := rfl

@[simp] theorem State.failDecode_cfg (e : Err) (s : State) : (s.failDecode e).cfg = s.cfg := rfl
@[simp] theorem State.failDecode_mrf (e : Err) (s : State) : (s.failDecode e).mrf = s.mrf := rfl
@[simp] theorem State.failDecode_status (e : Err) (s : State) : (s.failDecode e).status = statusWord (some e) := rfl
@[simp] theorem State.failDecode_out (e : Err) (s : State) : (s.failDecode e).out = s.out := rfl
@[simp] theorem State.failDecode_work (e : Err) (s : State) : (s.failDecode e).work = .idle := rfl
@[simp] theorem State.failDecode_input (e : Err) (s : State) : (s.failDecode e).input = s.input := rfl
@[simp] theorem State.failDecode_responses (e : Err) (s : State) : (s.failDecode e).responses = ⟨some e, []⟩ :: s.responses := rfl

@[simp] theorem State.commitDecode_cfg (m : Message) (s : State) : (s.commitDecode m).cfg = s.cfg := rfl
@[simp] theorem State.commitDecode_mrf (m : Message) (s : State) : (s.commitDecode m).mrf = m := rfl
@[simp] theorem State.commitDecode_status (m : Message) (s : State) : (s.commitDecode m).status = statusWord none := rfl
@[simp] theorem State.commitDecode_out (m : Message) (s : State) : (s.commitDecode m).out = s.out := rfl
@[simp] theorem State.commitDecode_work (m : Message) (s : State) : (s.commitDecode m).work = .idle := rfl
@[simp] theorem State.commitDecode_input (m : Message) (s : State) : (s.commitDecode m).input = s.input := rfl
@[simp] theorem State.commitDecode_responses (m : Message) (s : State) : (s.commitDecode m).responses = ⟨none, []⟩ :: s.responses := rfl

@[simp] theorem State.beginDecode_cfg (s : State) (b : Bytes) : (s.beginDecode b).cfg = s.cfg := rfl
@[simp] theorem State.beginDecode_mrf (s : State) (b : Bytes) : (s.beginDecode b).mrf = s.mrf := rfl
@[simp] theorem State.beginDecode_status (s : State) (b : Bytes) : (s.beginDecode b).status = s.status := rfl
@[simp] theorem State.beginDecode_out (s : State) (b : Bytes) : (s.beginDecode b).out = s.out := rfl
@[simp] theorem State.beginDecode_work (s : State) (b : Bytes) : (s.beginDecode b).work = .decoding (DecodeWork.start b) := rfl
@[simp] theorem State.beginDecode_input (s : State) (b : Bytes) : (s.beginDecode b).input = s.input := rfl
@[simp] theorem State.beginDecode_responses (s : State) (b : Bytes) : (s.beginDecode b).responses = s.responses := rfl

@[simp] theorem State.afterSuccess_cfg (s : State) : s.afterSuccess.cfg = s.cfg := rfl
@[simp] theorem State.afterSuccess_mrf (s : State) : s.afterSuccess.mrf = s.mrf := rfl
@[simp] theorem State.afterSuccess_status (s : State) : s.afterSuccess.status = 0x0001 := rfl
@[simp] theorem State.afterSuccess_out (s : State) : s.afterSuccess.out = s.out := rfl
@[simp] theorem State.afterSuccess_work (s : State) : s.afterSuccess.work = s.work := rfl
@[simp] theorem State.afterSuccess_input (s : State) : s.afterSuccess.input = s.input := rfl
@[simp] theorem State.afterSuccess_responses (s : State) : s.afterSuccess.responses = ⟨none, []⟩ :: s.responses := rfl

@[simp] theorem State.afterError_cfg (e : Err) (s : State) : (s.afterError e).cfg = s.cfg := rfl
@[simp] theorem State.afterError_mrf (e : Err) (s : State) : (s.afterError e).mrf = s.mrf := rfl
@[simp] theorem State.afterError_status (e : Err) (s : State) : (s.afterError e).status = errCode (some e) ++ 0x03#8 := rfl
@[simp] theorem State.afterError_out (e : Err) (s : State) : (s.afterError e).out = s.out := rfl
@[simp] theorem State.afterError_work (e : Err) (s : State) : (s.afterError e).work = s.work := rfl
@[simp] theorem State.afterError_input (e : Err) (s : State) : (s.afterError e).input = s.input := rfl
@[simp] theorem State.afterError_responses (e : Err) (s : State) : (s.afterError e).responses = ⟨some e, []⟩ :: s.responses := rfl

@[simp] theorem State.afterRead_cfg (s : State) (d : Bytes) : (s.afterRead d).cfg = s.cfg := rfl
@[simp] theorem State.afterRead_mrf (s : State) (d : Bytes) : (s.afterRead d).mrf = s.mrf := rfl
@[simp] theorem State.afterRead_status (s : State) (d : Bytes) : (s.afterRead d).status = s.status := rfl
@[simp] theorem State.afterRead_out (s : State) (d : Bytes) : (s.afterRead d).out = s.out := rfl
@[simp] theorem State.afterRead_work (s : State) (d : Bytes) : (s.afterRead d).work = s.work := rfl
@[simp] theorem State.afterRead_input (s : State) (d : Bytes) : (s.afterRead d).input = s.input := rfl
@[simp] theorem State.afterRead_responses (s : State) (d : Bytes) : (s.afterRead d).responses = ⟨none, d⟩ :: s.responses := rfl

@[simp] theorem State.afterBadRead_cfg (s : State) : s.afterBadRead.cfg = s.cfg := rfl
@[simp] theorem State.afterBadRead_mrf (s : State) : s.afterBadRead.mrf = s.mrf := rfl
@[simp] theorem State.afterBadRead_status (s : State) : s.afterBadRead.status = s.status := rfl
@[simp] theorem State.afterBadRead_out (s : State) : s.afterBadRead.out = s.out := rfl
@[simp] theorem State.afterBadRead_work (s : State) : s.afterBadRead.work = s.work := rfl
@[simp] theorem State.afterBadRead_input (s : State) : s.afterBadRead.input = s.input := rfl
@[simp] theorem State.afterBadRead_responses (s : State) : s.afterBadRead.responses = ⟨some .illegalCommand, []⟩ :: s.responses := rfl

@[simp] theorem State.resetWith_cfg (c : Config) : (State.resetWith c).cfg = c := rfl
@[simp] theorem State.resetWith_mrf (c : Config) : (State.resetWith c).mrf = Message.default := rfl
@[simp] theorem State.resetWith_status (c : Config) : (State.resetWith c).status = 0 := rfl
@[simp] theorem State.resetWith_out (c : Config) : (State.resetWith c).out = [] := rfl
@[simp] theorem State.resetWith_work (c : Config) : (State.resetWith c).work = .idle := rfl
@[simp] theorem State.resetWith_input (c : Config) : (State.resetWith c).input = [] := rfl
@[simp] theorem State.resetWith_responses (c : Config) : (State.resetWith c).responses = [] := rfl

@[simp] theorem State.alone_cfg (s : State) : s.alone.cfg = s.cfg := rfl
@[simp] theorem State.alone_mrf (s : State) : s.alone.mrf = s.mrf := rfl
@[simp] theorem State.alone_status (s : State) : s.alone.status = s.status := rfl
@[simp] theorem State.alone_out (s : State) : s.alone.out = s.out := rfl
@[simp] theorem State.alone_work (s : State) : s.alone.work = .idle := rfl
@[simp] theorem State.alone_input (s : State) : s.alone.input = [] := rfl
@[simp] theorem State.alone_responses (s : State) : s.alone.responses = [] := rfl

@[simp] theorem State.atPorts_cfg (a : State) (b : Bytes) (r : List Response) : (a.atPorts b r).cfg = a.cfg := rfl
@[simp] theorem State.atPorts_mrf (a : State) (b : Bytes) (r : List Response) : (a.atPorts b r).mrf = a.mrf := rfl
@[simp] theorem State.atPorts_status (a : State) (b : Bytes) (r : List Response) : (a.atPorts b r).status = a.status := rfl
@[simp] theorem State.atPorts_out (a : State) (b : Bytes) (r : List Response) : (a.atPorts b r).out = a.out := rfl
@[simp] theorem State.atPorts_work (a : State) (b : Bytes) (r : List Response) : (a.atPorts b r).work = a.work := rfl
@[simp] theorem State.atPorts_input (a : State) (b : Bytes) (r : List Response) : (a.atPorts b r).input = b := rfl
@[simp] theorem State.atPorts_responses (a : State) (b : Bytes) (r : List Response) : (a.atPorts b r).responses = a.responses ++ r := rfl

/-- The end of a successful command, as Safety.lean states it. -/
theorem State.complete_none (s : State) : s.complete none = s.afterSuccess := rfl

/-- The end of a failing command, as Safety.lean states it. -/
theorem State.complete_some (e : Err) (s : State) : s.complete (some e) = s.afterError e := by
  cases e <;> rfl

theorem State.failDecode_eq (e : Err) (s : State) : s.failDecode e = State.afterError { s with work := .idle } e :=
  State.complete_some e _

theorem State.commitDecode_eq (m : Message) (s : State) :
    s.commitDecode m = State.afterSuccess { s with work := .idle, mrf := m } := rfl

/-- An error never leaves the STATUS of success. -/
theorem errCode_status_ne (e : Err) : errCode (some e) ++ 0x03#8 ≠ (0x0001 : BitVec 16) := by
  cases e <;> decide

/-- The fields of STATUS after a command with outcome `e`. -/
theorem statusWord_fields (e : Option Err) :
    (statusWord e).extractLsb' 0 1 = 1 ∧ ((statusWord e).extractLsb' 1 1 = 1 ↔ errCode e ≠ 0) ∧
      (statusWord e).extractLsb' 2 6 = 0 ∧ (statusWord e).extractLsb' 8 8 = errCode e ∧ (errCode e).toNat ≤ 12 := by
  rcases e with _ | e
  · decide
  · cases e <;> decide

end Sys2Proof.Machine
end

