-- ==== Sys2Proof/Laws/Ops.lean ====
section
/-! SUPPORT. One lemma per shared operation of Machine/Operands.lean and Machine/Ops.lean: everything it can answer. -/

namespace Sys2Proof.Machine

/-! ## How commands end -/

theorem whenIdle_idle {s : State} (h : s.work = .idle) (r : Result) : whenIdle s r = r := by
  simp [whenIdle, h]

theorem whenIdle_busy {s : State} {w : DecodeWork} (h : s.work = .decoding w) (r : Result) :
    whenIdle s r = .fault .overlappingCommand := by
  simp [whenIdle, h]

/-- A guarded command that answers a next state ran in an idle block. -/
theorem whenIdle_next {s t : State} {r : Result} (h : whenIdle s r = .next t) : s.work = .idle ∧ r = .next t := by
  cases hw : s.work with
  | idle => exact ⟨rfl, by rwa [whenIdle_idle hw] at h⟩
  | decoding w => rw [whenIdle_busy hw] at h; cases h

/-- Everything a non-READ command can answer in an idle block. -/
theorem runCommand_idle {s : State} (h : s.work = .idle) (r : Except Err State) :
    runCommand s r = .next (match r with | .ok s' => s'.afterSuccess | .error e => s.afterError e) := by
  unfold runCommand
  rw [whenIdle_idle h]
  cases r with
  | ok s' => rfl
  | error e => simp [State.complete_some]

/-- Everything a non-READ command's next state can be. -/
theorem runCommand_next {s t : State} {r : Except Err State} (h : runCommand s r = .next t) :
    s.work = .idle ∧ ((∃ s', r = .ok s' ∧ t = s'.afterSuccess) ∨ (∃ e, r = .error e ∧ t = s.afterError e)) := by
  obtain ⟨hw, -⟩ := whenIdle_next h
  rw [runCommand_idle hw] at h
  refine ⟨hw, ?_⟩
  cases r with
  | ok s' => exact .inl ⟨s', rfl, by cases h; rfl⟩
  | error e => exact .inr ⟨e, rfl, by cases h; rfl⟩

/-- Everything a READ can answer in an idle block. -/
theorem runRead_idle {s : State} (h : s.work = .idle) (r : Except Err Bytes) :
    runRead s r = .next (match r with | .ok d => s.respond none d | .error e => s.respond (some e) []) :=
  (whenIdle_idle h _).trans (by cases r <;> rfl)

/-- A READ's next state differs in one more response. -/
theorem runRead_next {s t : State} {r : Except Err Bytes} (h : runRead s r = .next t) :
    s.work = .idle ∧ ((∃ d, r = .ok d ∧ t = s.respond none d) ∨ (∃ e, r = .error e ∧ t = s.respond (some e) [])) := by
  obtain ⟨hw, -⟩ := whenIdle_next h
  rw [runRead_idle hw] at h
  refine ⟨hw, ?_⟩
  cases r with
  | ok d => exact .inl ⟨d, rfl, by cases h; rfl⟩
  | error e => exact .inr ⟨e, rfl, by cases h; rfl⟩

/-- Everything a wire unit can answer at its stage. -/
theorem inDecode_at {s : State} {w : DecodeWork} {st : Stage} (hw : s.work = .decoding w) (hs : w.stage = st)
    (f : DecodeWork → Except Err State) :
    inDecode s st f = .next (match f w with
      | .ok s' => s'
      | .error e => State.afterError { s with work := .idle } e) := by
  simp only [inDecode, hw, hs, if_true]
  cases f w with
  | ok s' => rfl
  | error e => simp [State.failDecode_eq]

/-- Everything a wire unit's next state can be. -/
theorem inDecode_next {s t : State} {st : Stage} {f : DecodeWork → Except Err State} (h : inDecode s st f = .next t) :
    ∃ w, s.work = .decoding w ∧ w.stage = st ∧
      (f w = .ok t ∨ ∃ e, f w = .error e ∧ t = State.afterError { s with work := .idle } e) := by
  cases hw : s.work with
  | idle => simp [inDecode, hw] at h
  | decoding w =>
    by_cases hs : w.stage = st
    · refine ⟨w, rfl, hs, ?_⟩
      rw [inDecode_at hw hs] at h
      cases hf : f w with
      | ok s' => rw [hf] at h; cases h; exact .inl rfl
      | error e => rw [hf] at h; cases h; exact .inr ⟨e, rfl, rfl⟩
    · simp [inDecode, hw, hs] at h

/-! ## Bounded reads and writes (20 R51, R52) -/

theorem memRead_length (buf : Bytes) (addr k : Nat) (h : addr + k ≤ buf.length) : (memRead buf addr k).length = k := by
  simp only [memRead, List.length_take, List.length_drop]; omega

/-- A read in the middle of a sequence gives the middle. -/
theorem memRead_mid (a b c : Bytes) : memRead (a ++ b ++ c) a.length b.length = b := by
  simp [memRead]

theorem memReadU_one (buf : Bytes) (addr : Nat) (b : Byte) (rest : Bytes) (h : buf.drop addr = b :: rest) :
    memReadU buf addr 1 = b.toNat := by
  simp [memReadU, memRead, h]

theorem memReadU_two (buf : Bytes) (addr : Nat) (b c : Byte) (rest : Bytes) (h : buf.drop addr = b :: c :: rest) :
    memReadU buf addr 2 = b.toNat * 256 + c.toNat := by
  simp [memReadU, memRead, h]

/-- A write inside a buffer keeps its length. -/
theorem memWrite_length (buf : Bytes) (addr : Nat) (v : Bytes) (h : addr + v.length ≤ buf.length) :
    (memWrite buf addr v).length = buf.length := by
  simp only [memWrite, List.length_append, List.length_take, List.length_drop]; omega

/-- A write replaces exactly the bytes it covers. -/
theorem memWrite_mid (a old v c : Bytes) (h : old.length = v.length) :
    memWrite (a ++ (old ++ c)) a.length v = a ++ (v ++ c) := by
  simp [memWrite, ← h]

/-- A write just after the part already written extends that part. -/
theorem memWrite_prefix (a junk v : Bytes) :
    memWrite (a ++ junk) a.length v = a ++ v ++ junk.drop v.length := by
  simp [memWrite, List.drop_append]

/-- A byte outside the bytes written reads as before. -/
theorem memWrite_getElem?_outside (buf : Bytes) (addr : Nat) (v : Bytes) (h : addr + v.length ≤ buf.length) (i : Nat)
    (hi : i < addr ∨ addr + v.length ≤ i) : (memWrite buf addr v)[i]? = buf[i]? := by
  have ht : (buf.take addr).length = addr := by simp only [List.length_take]; omega
  rcases hi with hi | hi
  · rw [memWrite, List.append_assoc, List.getElem?_append_left (by omega), List.getElem?_take_of_lt hi]
  · rw [memWrite, List.getElem?_append_right (by simp [ht]; omega), List.getElem?_drop]
    congr 1; simp only [List.length_append, ht]; omega

/-- A byte inside the bytes written reads as written. -/
theorem memWrite_getElem?_inside (buf : Bytes) (addr : Nat) (v : Bytes) (h : addr + v.length ≤ buf.length) (i : Nat)
    (hi : i < v.length) : (memWrite buf addr v)[addr + i]? = v[i]? := by
  have ht : (buf.take addr).length = addr := by simp only [List.length_take]; omega
  rw [memWrite, List.append_assoc, List.getElem?_append_right (by omega), ht,
    List.getElem?_append_left (by omega)]
  congr 1; omega

/-! ## The extension scheme (30 R76, 41 R120 to R124, R133) -/

theorem nibbleClass_cases (v : BitVec 4) :
    (nibbleClass v = .L ∧ v.toNat ≤ 12) ∨ (nibbleClass v = .B ∧ v = 13) ∨ (nibbleClass v = .W ∧ v = 14) ∨
      (nibbleClass v = .R ∧ v = 15) := by
  revert v; decide

theorem extResolve_literal (v : BitVec 4) (h : v.toNat ≤ 12) : extResolve v = resolveL v := by
  simp [extResolve, nibbleClass, h]

theorem extResolve_13 : extResolve 13 = resolveB := rfl

theorem extResolve_14 : extResolve 14 = resolveW := rfl

theorem extResolve_15 : extResolve 15 = resolveR := rfl

/-- A nibble and its extension bytes at the cursor resolve to their value, and the cursor passes them. -/
theorem extResolve_of_extForm {n : BitVec 4} {x : Bytes} {v : Nat} (hf : ExtForm n x v) {buf : Bytes} {pos : Nat}
    {rest : Bytes} (h : buf.drop pos = x ++ rest) : extResolve n buf pos = .ok (v, pos + x.length) := by
  have hlen := congrArg List.length h
  rw [List.length_drop, List.length_append] at hlen
  cases hf with
  | literal _ hv => rw [extResolve_literal _ hv]; rfl
  | byte e =>
    rw [List.length_singleton] at hlen
    rw [extResolve_13, resolveB, if_neg (by omega), memReadU_one buf pos e rest h]; rfl
  | word e1 e2 =>
    simp only [List.length_cons, List.length_nil] at hlen
    rw [extResolve_14, resolveW, if_neg (by omega), memReadU_two buf pos e1 e2 rest h]; rfl

/-- Everything EXT_RESOLVE can answer: the value of the nibble and the extension bytes at the cursor, or one of its two
errors. -/
theorem extResolve_cases (n : BitVec 4) (buf : Bytes) (pos : Nat) :
    (∃ x rest v, ExtForm n x v ∧ buf.drop pos = x ++ rest ∧ extResolve n buf pos = .ok (v, pos + x.length)) ∨
    (extResolve n buf pos = .error .truncatedOption ∧
      ((n = 13 ∧ buf.length - pos < 1) ∨ (n = 14 ∧ buf.length - pos < 2))) ∨
    (n = 15 ∧ extResolve n buf pos = .error .reservedLengthField) := by
  have hlen : (buf.drop pos).length = buf.length - pos := List.length_drop
  have good {x rest v} (hf : ExtForm n x v) (h : buf.drop pos = x ++ rest) :
      ∃ x rest v, ExtForm n x v ∧ buf.drop pos = x ++ rest ∧ extResolve n buf pos = .ok (v, pos + x.length) :=
    ⟨x, rest, v, hf, h, extResolve_of_extForm hf h⟩
  rcases nibbleClass_cases n with ⟨-, h⟩ | ⟨-, rfl⟩ | ⟨-, rfl⟩ | ⟨-, rfl⟩
  · exact .inl (good (.literal n h) (List.nil_append _).symm)
  · rcases hd : buf.drop pos with _ | ⟨e, rest⟩
    · rw [hd, List.length_nil] at hlen
      exact .inr (.inl ⟨by rw [extResolve_13, resolveB, if_pos (by omega)], .inl ⟨rfl, by omega⟩⟩)
    · exact .inl (hd ▸ good (.byte e) hd)
  · rcases hd : buf.drop pos with _ | ⟨e, _ | ⟨f, rest⟩⟩
    · rw [hd, List.length_nil] at hlen
      exact .inr (.inl ⟨by rw [extResolve_14, resolveW, if_pos (by omega)], .inr ⟨rfl, by omega⟩⟩)
    · rw [hd, List.length_singleton] at hlen
      exact .inr (.inl ⟨by rw [extResolve_14, resolveW, if_pos (by omega)], .inr ⟨rfl, by omega⟩⟩)
    · exact .inl (hd ▸ good (.word e f) hd)
  · exact .inr (.inr ⟨rfl, rfl⟩)

/-- The extension bytes of a value are as many as `xlen` says. -/
theorem ExtForm.length_eq {n : BitVec 4} {x : Bytes} {v : Nat} (h : ExtForm n x v) : x.length = xlen v := by
  cases h with
  | literal v h => simp [xlen, h]
  | byte e => have := e.isLt; simp only [List.length_singleton, xlen]; split <;> [omega; (split <;> omega)]
  | word a b =>
    have := a.isLt
    simp only [List.length_cons, List.length_nil, xlen]; split <;> [omega; (split <;> omega)]

/-- A value with an encoding is at most 65804. -/
theorem ExtForm.le {n : BitVec 4} {x : Bytes} {v : Nat} (h : ExtForm n x v) : v ≤ 65804 := by
  cases h with
  | literal v h => omega
  | byte e => have := e.isLt; omega
  | word a b => have := a.isLt; have := b.isLt; omega

/-- A value that EXT_ENCODE accepts has the form it gives. -/
theorem extEncode_le {v : Nat} (h : v ≤ 65804) : ∃ n x, extEncode v = .ok (n, x) ∧ ExtForm n x v := by
  unfold extEncode
  split
  · rename_i h12
    refine ⟨_, _, rfl, ?_⟩
    have hv : (BitVec.ofNat 4 v).toNat = v := by simp only [BitVec.toNat_ofNat]; omega
    have := ExtForm.literal (BitVec.ofNat 4 v) (by omega)
    rwa [hv] at this
  · split
    · refine ⟨_, _, rfl, ?_⟩
      have := ExtForm.byte (BitVec.ofNat 8 (v - 13))
      rwa [BitVec.toNat_ofNat, show 13 + (v - 13) % 2 ^ 8 = v by omega] at this
    · refine ⟨_, _, rfl, ?_⟩
      have h1 : (BitVec.ofNat 8 ((v - 269) >>> 8)).toNat = (v - 269) / 256 := by
        rw [BitVec.toNat_ofNat, Nat.shiftRight_eq_div_pow]; omega
      have h2 : (BitVec.ofNat 8 ((v - 269) &&& 0xFF)).toNat = (v - 269) % 256 := by
        rw [BitVec.toNat_ofNat, Nat.and_two_pow_sub_one_eq_mod _ 8]; omega
      have := ExtForm.word (BitVec.ofNat 8 ((v - 269) >>> 8)) (BitVec.ofNat 8 ((v - 269) &&& 0xFF))
      rwa [h1, h2, show 269 + ((v - 269) / 256 * 256 + (v - 269) % 256) = v by omega] at this

/-- A nibble and extension bytes are what EXT_ENCODE gives for their value, so a value has one encoding (30 R78). -/
theorem ExtForm.encode_eq {n : BitVec 4} {x : Bytes} {v : Nat} (h : ExtForm n x v) : extEncode v = .ok (n, x) := by
  cases h with
  | literal v h => simp [extEncode, h]
  | byte e =>
    have := e.isLt
    rw [extEncode, if_neg (by omega), if_pos (by omega), Nat.add_sub_cancel_left]; simp
  | word a b =>
    have := a.isLt
    have := b.isLt
    rw [extEncode, if_neg (by omega), if_neg (by omega), if_pos (by omega), Nat.add_sub_cancel_left]
    have h1 : BitVec.ofNat 8 ((a.toNat * 256 + b.toNat) >>> 8) = a := by
      apply BitVec.eq_of_toNat_eq; rw [BitVec.toNat_ofNat, Nat.shiftRight_eq_div_pow]; omega
    have h2 : BitVec.ofNat 8 ((a.toNat * 256 + b.toNat) &&& 0xFF) = b := by
      apply BitVec.eq_of_toNat_eq; rw [BitVec.toNat_ofNat, Nat.and_two_pow_sub_one_eq_mod _ 8]; omega
    rw [h1, h2]

/-- A value above 65804 has no encoding (41 R134). -/
theorem extEncode_gt {v : Nat} (h : 65804 < v) : extEncode v = .error .valueTooLarge := by
  unfold extEncode
  rw [if_neg (by omega), if_neg (by omega), if_neg (by omega)]

/-! ## The header checks (40 R100, R103) -/

/-- Everything HDR_PARSE's checks can answer. -/
theorem hdrCheck_cases (n : Nat) (ver : BitVec 2) (h : Header) :
    (n < 4 ∧ hdrCheck n ver h = .error .bufferTooShort) ∨
    (4 ≤ n ∧ ver ≠ 1 ∧ hdrCheck n ver h = .error .unsupportedVersion) ∨
    (4 ≤ n ∧ ver = 1 ∧ 8 < h.tkl.toNat ∧ hdrCheck n ver h = .error .invalidTokenLength) ∨
    (4 ≤ n ∧ ver = 1 ∧ h.tkl.toNat ≤ 8 ∧ hdrCheck n ver h = .ok h) := by
  by_cases h4 : n < 4
  · exact .inl ⟨h4, by simp [hdrCheck, h4]⟩
  · by_cases hv : ver = 1
    · by_cases ht : h.tkl.toNat > 8
      · exact .inr (.inr (.inl ⟨by omega, hv, ht, by simp [hdrCheck, h4, hv, ht]⟩))
      · exact .inr (.inr (.inr ⟨by omega, hv, by omega, by simp [hdrCheck, h4, hv, ht]⟩))
    · exact .inr (.inl ⟨by omega, hv, by rw [hdrCheck, if_neg h4, if_pos hv]⟩)

/-- Everything TOKEN_EXTRACT can answer. -/
theorem tokenExtract_cases (buf : Bytes) (tkl : Nat) :
    (buf.length - 4 < tkl ∧ tokenExtract buf tkl = .error .truncatedToken) ∨
    (tkl ≤ buf.length - 4 ∧ tokenExtract buf tkl = .ok ((buf.drop 4).take tkl, 4 + tkl)) := by
  by_cases h : buf.length - 4 < tkl
  · exact .inl ⟨h, by simp [tokenExtract, h]⟩
  · exact .inr ⟨by omega, by simp [tokenExtract, h, memRead]⟩

/-! ## The option entry and the store (41 R126, R129; 42 R171) -/

/-- Everything the capacity check can answer. -/
theorem appendOpt_cases (cfg : Config) (opts : List Opt) (r : Opt) :
    (cfg.optMax = some opts.length ∧ appendOpt cfg opts r = .error .capacityExceeded) ∨
    (cfg.optMax ≠ some opts.length ∧ appendOpt cfg opts r = .ok (opts ++ [r])) := by
  by_cases h : cfg.optMax = some opts.length
  · exact .inl ⟨h, by simp [appendOpt, h]⟩
  · exact .inr ⟨h, by simp [appendOpt, h]⟩

/-- A bound kept and not met exactly is kept by one more. -/
theorem fits_succ {b : Option Nat} {n : Nat} (h : fits b n = true) (hne : b ≠ some n) : fits b (n + 1) = true := by
  cases b with
  | none => rfl
  | some m =>
    simp only [fits, decide_eq_true_eq] at h ⊢
    have : m ≠ n := fun e => hne (e ▸ rfl)
    omega

theorem fits_mono {b : Option Nat} {m n : Nat} (h : fits b n = true) (hm : m ≤ n) : fits b m = true := by
  cases b with
  | none => rfl
  | some k => simp only [fits, decide_eq_true_eq] at h ⊢; omega

@[simp] theorem valueBytes_nil : valueBytes [] = 0 := rfl

@[simp] theorem valueBytes_cons (o : Opt) (opts : List Opt) : valueBytes (o :: opts) = o.val.length + valueBytes opts := by
  simp [valueBytes]

@[simp] theorem valueBytes_append (a b : List Opt) : valueBytes (a ++ b) = valueBytes a + valueBytes b := by
  simp [valueBytes]

/-- An insertion adds one record. -/
theorem insertOpt_length (opts : List Opt) (num : BitVec 32) (val : Bytes) :
    (insertOpt opts num val).length = opts.length + 1 := by
  have := List.countP_le_length (p := fun r : Opt => decide (r.num.toNat ≤ num.toNat)) (l := opts)
  simp only [insertOpt, List.length_append, List.length_take, List.length_drop, List.length_singleton]; omega

/-- An insertion adds the bytes of its value. -/
theorem insertOpt_valueBytes (opts : List Opt) (num : BitVec 32) (val : Bytes) :
    valueBytes (insertOpt opts num val) = valueBytes opts + val.length := by
  have h (i : Nat) : valueBytes (opts.take i) + valueBytes (opts.drop i) = valueBytes opts := by
    rw [← valueBytes_append, List.take_append_drop]
  simp only [insertOpt, valueBytes_append, valueBytes_cons, valueBytes_nil]
  have := h (opts.countP fun r => decide (r.num.toNat ≤ num.toNat))
  omega

/-- In a sorted sequence an insertion goes between the records whose number is at most `num` and the others. -/
theorem insertOpt_split {opts : List Opt} (num : BitVec 32) (val : Bytes) (h : NumsSorted opts) :
    ∃ a b, insertOpt opts num val = a ++ [⟨num, val⟩] ++ b ∧ opts = a ++ b ∧ (∀ o ∈ a, o.num.toNat ≤ num.toNat) ∧
      (∀ o ∈ b, num.toNat < o.num.toNat) := by
  refine ⟨_, _, rfl, (List.take_append_drop _ opts).symm, ?_⟩
  induction opts with
  | nil => simp
  | cons o l ih =>
    obtain ⟨h1, h2⟩ := List.pairwise_cons.mp h
    by_cases ho : o.num.toNat ≤ num.toNat
    · rw [List.countP_cons_of_pos (by simpa using ho)]
      simp only [List.take_succ_cons, List.drop_succ_cons]
      refine ⟨?_, (ih h2).2⟩
      intro x hx
      rcases List.mem_cons.mp hx with rfl | hx
      · exact ho
      · exact (ih h2).1 x hx
    · have h0 : (o :: l).countP (fun r => decide (r.num.toNat ≤ num.toNat)) = 0 := by
        rw [List.countP_eq_zero]; intro x hx
        rcases List.mem_cons.mp hx with rfl | hx
        · simpa using ho
        · have := h1 x hx; simp; omega
      rw [h0]; simp only [List.take_zero, List.drop_zero]
      refine ⟨by simp, ?_⟩
      intro x hx
      rcases List.mem_cons.mp hx with rfl | hx
      · omega
      · have := h1 x hx; omega

/-- An insertion keeps the numbers non-decreasing (10 R29). -/
theorem insertOpt_sorted {opts : List Opt} (num : BitVec 32) (val : Bytes) (h : NumsSorted opts) :
    NumsSorted (insertOpt opts num val) := by
  obtain ⟨a, b, hi, rfl, ha, hb⟩ := insertOpt_split num val h
  obtain ⟨p1, p2, p3⟩ := List.pairwise_append.mp h
  rw [hi, List.append_assoc]
  refine List.pairwise_append.mpr ⟨p1, List.pairwise_cons.mpr ⟨fun x hx => Nat.le_of_lt (hb x hx), p2⟩, ?_⟩
  intro x hx y hy
  rcases List.mem_cons.mp hy with rfl | hy
  · exact ha x hx
  · exact p3 x hx y hy

end Sys2Proof.Machine
end

