-- ==== Sys2Proof/Laws/Codec.lean ====
section
/-! SUPPORT. The codec operations against the wire format: what an entry, the option loop, SIZE and the emission loops can
answer, each said once over the grammar of Safety.lean. -/

namespace Sys2Proof.Machine

theorem drop_add_of_drop_eq {α : Type} {l a b : List α} {i : Nat} (h : l.drop i = a ++ b) : l.drop (i + a.length) = b := by
  rw [← List.drop_drop, h, List.drop_left]

/-! ## One entry (41 R126, R127) -/

/-- An entry in its wire form decodes to its option, unless its number overflows. -/
theorem entryBody_of_form {dn ln : BitVec 4} {dx lx val rest : Bytes} {delta : Nat} (hd : ExtForm dn dx delta)
    (hl : ExtForm ln lx val.length) {buf : Bytes} {pos : Nat} (h : buf.drop pos = dx ++ (lx ++ (val ++ rest)))
    (num : BitVec 32) :
    entryBody (extResolve dn) (extResolve ln) buf pos num =
      if num.toNat + delta > 0xFFFFFFFF then .error .numberOverflow
      else .ok (⟨BitVec.ofNat 32 (num.toNat + delta), val⟩, pos + dx.length + lx.length + val.length,
        BitVec.ofNat 32 (num.toNat + delta)) := by
  have h1 := drop_add_of_drop_eq h
  have h2 := drop_add_of_drop_eq h1
  have hlen := congrArg List.length h2
  rw [List.length_drop, List.length_append] at hlen
  simp only [entryBody, extResolve_of_extForm hd h, extResolve_of_extForm hl h1, bind, Except.bind]
  rw [if_neg (by omega)]
  have hr : memRead buf (pos + dx.length + lx.length) val.length = val := by
    rw [memRead, h2, List.take_left]
  rw [hr]

/-- Everything an entry can answer: its option, read off its wire form, or an error. -/
theorem entryBody_cases (dn ln : BitVec 4) (buf : Bytes) (pos : Nat) (num : BitVec 32) :
    (∃ dx lx val rest delta, ExtForm dn dx delta ∧ ExtForm ln lx val.length ∧
      buf.drop pos = dx ++ (lx ++ (val ++ rest)) ∧ num.toNat + delta ≤ 0xFFFFFFFF ∧
      entryBody (extResolve dn) (extResolve ln) buf pos num =
        .ok (⟨BitVec.ofNat 32 (num.toNat + delta), val⟩, pos + dx.length + lx.length + val.length,
          BitVec.ofNat 32 (num.toNat + delta))) ∨
    (∃ e ∈ [Err.truncatedOption, .reservedLengthField, .numberOverflow],
      entryBody (extResolve dn) (extResolve ln) buf pos num = .error e) := by
  rcases extResolve_cases dn buf pos with ⟨dx, r, delta, hd, h, hres⟩ | ⟨hres, -⟩ | ⟨-, hres⟩
  · have h1 := drop_add_of_drop_eq h
    rcases extResolve_cases ln buf (pos + dx.length) with ⟨lx, r2, len, hl, h', hres'⟩ | ⟨hres', -⟩ | ⟨-, hres'⟩
    · have h2 := drop_add_of_drop_eq h'
      have hlen := congrArg List.length h2
      rw [List.length_drop] at hlen
      by_cases hv : r2.length < len
      · refine .inr ⟨.truncatedOption, by simp, ?_⟩
        simp only [entryBody, hres, hres', bind, Except.bind]
        rw [if_pos (by omega)]
      · have hval : (r2.take len).length = len := by rw [List.length_take]; omega
        have hl' : ExtForm ln lx (r2.take len).length := by rwa [hval]
        have hall : buf.drop pos = dx ++ (lx ++ (r2.take len ++ r2.drop len)) := by
          rw [List.take_append_drop, h, ← h1, h']
        have := entryBody_of_form hd hl' hall num
        by_cases ho : num.toNat + delta > 0xFFFFFFFF
        · rw [if_pos ho] at this
          exact .inr ⟨_, by simp, this⟩
        · rw [if_neg ho] at this
          exact .inl ⟨dx, lx, _, _, delta, hd, hl', hall, by omega, this⟩
    · exact .inr ⟨.truncatedOption, by simp, by simp only [entryBody, hres, hres', bind, Except.bind]⟩
    · exact .inr ⟨.reservedLengthField, by simp, by simp only [entryBody, hres, hres', bind, Except.bind]⟩
  · exact .inr ⟨.truncatedOption, by simp, by simp only [entryBody, hres, bind, Except.bind]⟩
  · exact .inr ⟨.reservedLengthField, by simp, by simp only [entryBody, hres, bind, Except.bind]⟩

theorem hiNibble_ofNibbles (a b : BitVec 4) : hiNibble (ofNibbles a b) = a := by revert a b; decide

theorem loNibble_ofNibbles (a b : BitVec 4) : loNibble (ofNibbles a b) = b := by revert a b; decide

theorem ofNibbles_eta (b : Byte) : ofNibbles (hiNibble b) (loNibble b) = b := by revert b; decide

theorem optEntryDecode_eq {buf : Bytes} {pos : Nat} {b : Byte} {r : Bytes} (h : buf.drop pos = b :: r)
    (num : BitVec 32) :
    optEntryDecode buf pos num =
      entryBody (extResolve (hiNibble b)) (extResolve (loNibble b)) buf (pos + 1) num := by
  simp only [optEntryDecode, memReadU_one buf pos b r h, BitVec.ofNat_toNat, BitVec.setWidth_eq]

/-- A form's nibble is never 15, so no descriptor of an entry is the sentinel. -/
theorem ofNibbles_ne_sentinel {dn ln : BitVec 4} {dx : Bytes} {delta : Nat} (hd : ExtForm dn dx delta) :
    ofNibbles dn ln ≠ 0xFF := by
  intro h
  have := congrArg hiNibble h
  rw [hiNibble_ofNibbles] at this
  subst this
  have h15 : hiNibble 0xFF = 15 := by decide
  rw [h15] at hd
  generalize hn : (15 : BitVec 4) = n at hd
  cases hd with
  | literal v hv => subst hn; exact absurd hv (by decide)
  | byte => exact absurd hn (by decide)
  | word => exact absurd hn (by decide)

/-! ## Runs of entries (30 R74) -/

/-- The options of a run have non-decreasing numbers, none below the number before the run. -/
theorem Entries.sorted {prev : Nat} {body : Bytes} {opts : List Opt} (h : Entries prev body opts) :
    NumsSorted opts ∧ ∀ o ∈ opts, prev ≤ o.num.toNat := by
  induction h with
  | nil => exact ⟨.nil, fun _ h => absurd h List.not_mem_nil⟩
  | cons prev delta num dn ln dx lx val rest opts hd hl hn hr ih =>
    refine ⟨List.pairwise_cons.mpr ⟨ih.2, ih.1⟩, fun o ho => ?_⟩
    rcases List.mem_cons.mp ho with rfl | ho
    · show prev ≤ num.toNat; omega
    · have := ih.2 o ho; omega

/-- A run's options are within the format's range, and the run is as long as SIZE counts. -/
theorem Entries.representable {prev : Nat} {body : Bytes} {opts : List Opt} (h : Entries prev body opts) :
    Representable prev opts ∧ body.length = optionBytes prev opts ∧ valueBytes opts ≤ body.length := by
  induction h with
  | nil => exact ⟨trivial, rfl, Nat.le_refl _⟩
  | cons prev delta num dn ln dx lx val rest opts hd hl hn hr ih =>
    have e : num.toNat - prev = delta := by omega
    refine ⟨⟨?_, hl.le, ih.1⟩, ?_, ?_⟩
    · show num.toNat - prev ≤ _; rw [e]; exact hd.le
    · simp only [optionBytes, e, ← ih.2.1, ← hd.length_eq, ← hl.length_eq, List.length_cons, List.length_append]; omega
    · have := ih.2.2
      simp only [valueBytes_cons, List.length_cons, List.length_append]; omega

/-- The options of a run determine its bytes. -/
theorem Entries.unique {prev : Nat} {body : Bytes} {opts : List Opt} (h : Entries prev body opts) {body' : Bytes}
    (h' : Entries prev body' opts) : body' = body := by
  induction h generalizing body' with
  | nil => cases h'; rfl
  | cons prev delta num dn ln dx lx val rest opts hd hl hn hr ih =>
    cases h' with
    | cons _ delta' _ dn' ln' dx' lx' _ rest' _ hd' hl' hn' hr' =>
      obtain rfl : delta' = delta := by omega
      cases hd.encode_eq.symm.trans hd'.encode_eq
      cases hl.encode_eq.symm.trans hl'.encode_eq
      rw [ih hr']

/-! ## The option loop (41 R129) -/

/-- The loop over a well-formed body: entries, and then the end of the buffer or the sentinel. -/
theorem optSeqDecode_of_form (cfg : Config) (buf : Bytes) :
    ∀ (turns pos : Nat) (num : BitVec 32) (opts new : List Opt) (body tail p : Bytes),
      buf.length - pos ≤ turns → buf.drop pos = body ++ tail → pos ≤ buf.length →
      Entries num.toNat body new → (tail = [] ∧ p = []) ∨ tail = 0xFF :: p →
      fits cfg.optMax (opts.length + new.length) = true →
      optSeqDecode cfg turns buf pos num opts = .ok (opts ++ new, p) := by
  intro turns
  induction turns with
  | zero =>
    intro pos num opts new body tail p ht hdrop hp he htail _
    have : buf.drop pos = [] := List.drop_eq_nil_of_le (by omega)
    rw [this] at hdrop
    obtain ⟨rfl, rfl⟩ := List.append_eq_nil_iff.mp hdrop.symm
    rcases htail with ⟨-, rfl⟩ | h
    · cases he; simp [optSeqDecode]
    · cases h
  | succ turns ih =>
    intro pos num opts new body tail p ht hdrop hp he htail hfit
    rw [optSeqDecode]
    cases he with
    | nil =>
      rw [List.nil_append] at hdrop
      rcases htail with ⟨rfl, rfl⟩ | rfl
      · have : buf.length ≤ pos := List.drop_eq_nil_iff.mp hdrop
        rw [if_pos (by omega), List.append_nil]
      · have hlen := congrArg List.length hdrop
        rw [List.length_drop, List.length_cons] at hlen
        rw [if_neg (by omega), if_pos (by rw [memReadU_one buf pos _ _ hdrop]; rfl)]
        have h1 : buf.drop (pos + 1) = p := drop_add_of_drop_eq (a := [0xFF]) hdrop
        rw [memRead, h1, List.take_of_length_le (by omega), List.append_nil]
    | cons _ delta num' dn ln dx lx val rest opts' hd hl hn hr =>
      rw [List.cons_append] at hdrop
      have hlen := congrArg List.length hdrop
      rw [List.length_drop, List.length_cons] at hlen
      have hne : (ofNibbles dn ln).toNat ≠ 0xFF := fun h => ofNibbles_ne_sentinel hd (BitVec.eq_of_toNat_eq h)
      rw [if_neg (by omega), if_neg (by rw [memReadU_one buf pos _ _ hdrop]; exact hne)]
      have h1 : buf.drop (pos + 1) = dx ++ (lx ++ (val ++ (rest ++ tail))) := by
        have := drop_add_of_drop_eq (a := [ofNibbles dn ln]) hdrop
        simpa using this
      have hlt := num'.isLt
      have hnum : BitVec.ofNat 32 (num.toNat + delta) = num' := by
        apply BitVec.eq_of_toNat_eq; rw [BitVec.toNat_ofNat]; omega
      have hentry := entryBody_of_form hd hl h1 num
      rw [if_neg (by omega), hnum] at hentry
      rw [optEntryDecode_eq hdrop, hiNibble_ofNibbles, loNibble_ofNibbles, hentry]
      have happ : appendOpt cfg opts ⟨num', val⟩ = .ok (opts ++ [⟨num', val⟩]) := by
        rcases appendOpt_cases cfg opts ⟨num', val⟩ with ⟨h, -⟩ | ⟨-, h⟩
        · rw [h] at hfit; simp [fits] at hfit
        · exact h
      simp only [bind, Except.bind, happ]
      have hpos : buf.drop (pos + 1 + dx.length + lx.length + val.length) = rest ++ tail :=
        drop_add_of_drop_eq (drop_add_of_drop_eq (drop_add_of_drop_eq h1))
      have hlen1 := congrArg List.length h1
      simp only [List.length_drop, List.length_append] at hlen1
      rw [ih _ num' (opts ++ [(⟨num', val⟩ : Opt)]) opts' rest tail p (by omega) hpos (by omega) hr htail
        (by simpa [Nat.add_assoc, Nat.add_comm 1] using hfit)]
      simp

/-- Everything the loop can answer: the options and payload of a well-formed body, or one of four errors. -/
theorem optSeqDecode_cases (cfg : Config) (buf : Bytes) :
    ∀ (turns pos : Nat) (num : BitVec 32) (opts : List Opt),
      buf.length - pos ≤ turns → pos ≤ buf.length → fits cfg.optMax opts.length = true →
      (∃ new body tail p, buf.drop pos = body ++ tail ∧ Entries num.toNat body new ∧
        ((tail = [] ∧ p = []) ∨ tail = 0xFF :: p) ∧ fits cfg.optMax (opts.length + new.length) = true ∧
        optSeqDecode cfg turns buf pos num opts = .ok (opts ++ new, p)) ∨
      (∃ e ∈ [Err.truncatedOption, .reservedLengthField, .numberOverflow, .capacityExceeded],
        optSeqDecode cfg turns buf pos num opts = .error e) := by
  intro turns
  induction turns with
  | zero =>
    intro pos num opts ht hp hfit
    refine .inl ⟨[], [], [], [], ?_, .nil _, .inl ⟨rfl, rfl⟩, hfit, by simp [optSeqDecode]⟩
    exact List.drop_eq_nil_of_le (by omega)
  | succ turns ih =>
    intro pos num opts ht hp hfit
    rcases hdrop : buf.drop pos with _ | ⟨b, r⟩
    · have hn : buf.length ≤ pos := List.drop_eq_nil_iff.mp hdrop
      refine .inl ⟨[], [], [], [], rfl, .nil _, .inl ⟨rfl, rfl⟩, hfit, ?_⟩
      rw [optSeqDecode, if_pos (by omega), List.append_nil]
    · have hlen := congrArg List.length hdrop
      rw [List.length_drop, List.length_cons] at hlen
      have h1 : buf.drop (pos + 1) = r := drop_add_of_drop_eq (a := [b]) hdrop
      rw [optSeqDecode, if_neg (by omega), memReadU_one buf pos b r hdrop]
      by_cases hb : b.toNat = 0xFF
      · have hb' : b = 0xFF := BitVec.eq_of_toNat_eq hb
        subst hb'
        rw [if_pos hb, memRead, h1, List.take_of_length_le (by omega)]
        exact .inl ⟨[], [], 0xFF :: r, r, rfl, .nil _, .inr rfl, hfit, by rw [List.append_nil]⟩
      · rw [if_neg hb, optEntryDecode_eq hdrop]
        rcases entryBody_cases (hiNibble b) (loNibble b) buf (pos + 1) num with
          ⟨dx, lx, val, rest, delta, hd, hl, h2, ho, hentry⟩ | ⟨e, he, hentry⟩
        · rw [hentry]
          simp only [bind, Except.bind]
          rcases appendOpt_cases cfg opts ⟨BitVec.ofNat 32 (num.toNat + delta), val⟩ with ⟨-, happ⟩ | ⟨hne, happ⟩
          · rw [happ]; exact .inr ⟨_, by simp, rfl⟩
          · rw [happ]
            have hlen2 := congrArg List.length h2
            simp only [List.length_drop, List.length_append] at hlen2
            have hnum : (BitVec.ofNat 32 (num.toNat + delta)).toNat = num.toNat + delta := by
              rw [BitVec.toNat_ofNat]; omega
            rcases ih (pos + 1 + dx.length + lx.length + val.length) (BitVec.ofNat 32 (num.toNat + delta))
                (opts ++ [⟨BitVec.ofNat 32 (num.toNat + delta), val⟩]) (by omega) (by omega)
                (by simpa using fits_succ hfit hne) with
              ⟨new, body, tail, p, h3, hent, htail, hfit', hok⟩ | ⟨e, he, herr⟩
            · have hpos : buf.drop (pos + 1 + dx.length + lx.length + val.length) = rest :=
                drop_add_of_drop_eq (drop_add_of_drop_eq (drop_add_of_drop_eq h2))
              refine .inl ⟨⟨BitVec.ofNat 32 (num.toNat + delta), val⟩ :: new,
                ofNibbles (hiNibble b) (loNibble b) :: (dx ++ lx ++ val ++ body), tail, p, ?_,
                .cons _ delta _ _ _ _ _ _ _ _ hd hl hnum hent, htail, ?_, ?_⟩
              · rw [ofNibbles_eta, ← h1, h2, ← hpos, h3]; simp
              · simpa [Nat.add_assoc, Nat.add_comm 1] using hfit'
              · exact hok.trans (by simp)
            · exact .inr ⟨e, he, herr⟩
        · rw [hentry]
          exact .inr ⟨e, by simp only [List.mem_cons, List.not_mem_nil, or_false] at he ⊢; tauto, rfl⟩

/-! ## SIZE (41 R138) -/

/-- Everything SIZE's loop can answer: the bytes the options take, or `ValueTooLarge`. -/
theorem sizeOpts_cases : ∀ (opts : List Opt) (prev size : Nat),
    (Representable prev opts ∧ sizeOpts opts prev size = .ok (size + optionBytes prev opts)) ∨
    (¬ Representable prev opts ∧ sizeOpts opts prev size = .error .valueTooLarge)
  | [], prev, size => .inl ⟨trivial, by simp [sizeOpts, optionBytes]⟩
  | o :: opts, prev, size => by
    simp only [sizeOpts]
    by_cases hd : o.num.toNat - prev > 65804
    · exact .inr ⟨fun h => by have := h.1; omega, by rw [if_pos hd]⟩
    · by_cases hl : o.val.length > 65804
      · exact .inr ⟨fun h => by have := h.2.1; omega, by rw [if_neg hd, if_pos hl]⟩
      · rw [if_neg hd, if_neg hl]
        rcases sizeOpts_cases opts o.num.toNat
            (size + 1 + xlen (o.num.toNat - prev) + xlen o.val.length + o.val.length) with ⟨hr, h⟩ | ⟨hr, h⟩
        · refine .inl ⟨⟨by omega, by omega, hr⟩, h.trans ?_⟩
          simp only [optionBytes]; congr 1; omega
        · exact .inr ⟨fun hh => hr hh.2.2, h⟩

/-- Everything SIZE can answer. -/
theorem sizeOf_cases (m : Message) :
    (Representable 0 m.opts ∧ sizeOf m = .ok (wireSize m)) ∨
    (¬ Representable 0 m.opts ∧ sizeOf m = .error .valueTooLarge) := by
  rcases sizeOpts_cases m.opts 0 (4 + m.token.length) with ⟨hr, h⟩ | ⟨hr, h⟩
  · refine .inl ⟨hr, ?_⟩
    simp only [sizeOf, h, bind, Except.bind, wireSize]
    congr 1
    rcases m.payload with _ | ⟨b, p⟩
    · simp
    · simp; omega
  · exact .inr ⟨hr, by simp only [sizeOf, h, bind, Except.bind]⟩

/-! ## Emission (41 R135 to R137, R139) -/

/-- An entry within the format's range is written in its wire form just after the part already written. -/
theorem optEntryEncode_spec {delta : Nat} {val : Bytes} (hd : delta ≤ 65804) (hl : val.length ≤ 65804)
    (done junk : Bytes) :
    ∃ dn ln dx lx, ExtForm dn dx delta ∧ ExtForm ln lx val.length ∧
      optEntryEncode delta val (done ++ junk) done.length =
        .ok (done ++ (ofNibbles dn ln :: (dx ++ lx ++ val)) ++
            junk.drop (1 + dx.length + lx.length + val.length),
          (done ++ (ofNibbles dn ln :: (dx ++ lx ++ val))).length) := by
  obtain ⟨dn, dx, hde, hdf⟩ := extEncode_le hd
  obtain ⟨ln, lx, hle, hlf⟩ := extEncode_le hl
  refine ⟨dn, ln, dx, lx, hdf, hlf, ?_⟩
  simp only [optEntryEncode, hde, hle, bind, Except.bind]
  have s1 := memWrite_prefix done junk [ofNibbles dn ln]
  have s2 := memWrite_prefix (done ++ [ofNibbles dn ln]) (junk.drop 1) dx
  have s3 := memWrite_prefix (done ++ [ofNibbles dn ln] ++ dx) ((junk.drop 1).drop dx.length) lx
  have s4 := memWrite_prefix (done ++ [ofNibbles dn ln] ++ dx ++ lx) (((junk.drop 1).drop dx.length).drop lx.length) val
  simp only [List.length_append, List.length_singleton] at s1 s2 s3 s4
  rw [s1, s2, s3, s4]
  simp only [List.drop_drop, List.append_assoc, List.cons_append, List.nil_append, List.length_append, List.length_cons]
  congr 2
  omega

/-- The option loop of BODY_ENCODE writes the entries in their wire form, `optionBytes` of them. -/
theorem optsEncode_spec : ∀ (opts : List Opt) (prev : Nat) (done junk : Bytes),
    Representable prev opts → NumsSorted opts → (∀ o ∈ opts, prev ≤ o.num.toNat) →
    ∃ body, Entries prev body opts ∧ body.length = optionBytes prev opts ∧
      optsEncode opts prev (done ++ junk) done.length =
        .ok (done ++ body ++ junk.drop body.length, (done ++ body).length)
  | [], prev, done, junk, _, _, _ => ⟨[], .nil _, rfl, by simp [optsEncode]⟩
  | o :: opts, prev, done, junk, hr, hs, hp => by
    obtain ⟨hd, hl, hr'⟩ := hr
    obtain ⟨hle, hs'⟩ := List.pairwise_cons.mp hs
    obtain ⟨dn, ln, dx, lx, hdf, hlf, henc⟩ := optEntryEncode_spec hd hl done junk
    obtain ⟨body, hent, hlen, hrec⟩ := optsEncode_spec opts o.num.toNat
      (done ++ (ofNibbles dn ln :: (dx ++ lx ++ o.val))) (junk.drop (1 + dx.length + lx.length + o.val.length)) hr' hs' hle
    have hpo := hp o (List.mem_cons_self ..)
    refine ⟨ofNibbles dn ln :: (dx ++ lx ++ o.val ++ body),
      .cons prev _ o.num dn ln dx lx o.val body opts hdf hlf (by omega) hent, ?_, ?_⟩
    · simp only [optionBytes, List.length_cons, List.length_append, hdf.length_eq, hlf.length_eq, hlen]; omega
    · simp only [optsEncode, henc, bind, Except.bind]
      rw [hrec]
      simp only [List.drop_drop, List.append_assoc, List.cons_append, List.length_append, List.length_cons]
      have hsum : 1 + dx.length + lx.length + o.val.length + body.length =
          dx.length + (lx.length + (o.val.length + body.length)) + 1 := by omega
      rw [hsum]

end Sys2Proof.Machine
end

