-- ==== Sys2Proof/Laws/Decode.lean ====
section
/-! SUPPORT. The operand fields of a command, read and written: each field's reader undoes its writer, and the other way
round. -/

namespace Sys2Proof

theorem bytes32_toNat (v : BitVec 32) :
    bytes32 v = [BitVec.ofNat 8 (v.toNat / 2 ^ 24), BitVec.ofNat 8 (v.toNat / 2 ^ 16), BitVec.ofNat 8 (v.toNat / 2 ^ 8),
      BitVec.ofNat 8 v.toNat] := by
  simp only [bytes32, BitVec.extractLsb', Nat.shiftRight_eq_div_pow, Nat.pow_zero, Nat.div_one]

theorem bytes16_toNat (v : BitVec 16) : bytes16 v = [BitVec.ofNat 8 (v.toNat / 2 ^ 8), BitVec.ofNat 8 v.toNat] := by
  simp only [bytes16, BitVec.extractLsb', Nat.shiftRight_eq_div_pow, Nat.pow_zero, Nat.div_one]

theorem word16_value (a b : Byte) : (word16 a b).toNat = a.toNat * 256 + b.toNat := by
  have := b.isLt
  rw [word16, BitVec.toNat_append, ← Nat.shiftLeft_add_eq_or_of_lt this, Nat.shiftLeft_eq]

theorem word32_value (a b c d : Byte) :
    (word32 a b c d).toNat = ((a.toNat * 256 + b.toNat) * 256 + c.toNat) * 256 + d.toNat := by
  have hb := b.isLt
  have hc := c.isLt
  have hd := d.isLt
  rw [word32, BitVec.toNat_append, ← Nat.shiftLeft_add_eq_or_of_lt hd, BitVec.toNat_append,
    ← Nat.shiftLeft_add_eq_or_of_lt hc, BitVec.toNat_append, ← Nat.shiftLeft_add_eq_or_of_lt hb]
  simp only [Nat.shiftLeft_eq]

theorem take32_bytes32 (v : BitVec 32) (rest : Bytes) : take32 (bytes32 v ++ rest) = some (v, rest) := by
  have := v.isLt
  simp only [bytes32_toNat, take32, List.cons_append, List.nil_append]
  congr 2
  apply BitVec.eq_of_toNat_eq
  rw [word32_value]
  simp only [BitVec.toNat_ofNat]
  omega

theorem take16_bytes16 (v : BitVec 16) (rest : Bytes) : take16 (bytes16 v ++ rest) = some (v, rest) := by
  have := v.isLt
  simp only [bytes16_toNat, take16, List.cons_append, List.nil_append]
  congr 2
  apply BitVec.eq_of_toNat_eq
  rw [word16_value]
  simp only [BitVec.toNat_ofNat]
  omega

theorem takeBytes_append (bs rest : Bytes) : takeBytes bs.length (bs ++ rest) = some (bs, rest) := by
  simp [takeBytes]

theorem takeBytes_some {k : Nat} {bs v rest : Bytes} (h : takeBytes k bs = some (v, rest)) :
    bs = v ++ rest ∧ v.length = k := by
  unfold takeBytes at h
  split at h
  · cases h
  · cases h
    exact ⟨(List.take_append_drop k bs).symm, by rw [List.length_take]; omega⟩

theorem take8_some {bs rest : Bytes} {b : Byte} (h : take8 bs = some (b, rest)) : bs = b :: rest := by
  cases bs with
  | nil => cases h
  | cons a r => cases h; rfl

theorem take16_some {bs rest : Bytes} {v : BitVec 16} (h : take16 bs = some (v, rest)) : bs = bytes16 v ++ rest := by
  match bs, h with
  | a :: b :: r, h =>
    cases h
    have ha := a.isLt
    have hb := b.isLt
    simp only [bytes16_toNat, word16_value, List.cons_append, List.nil_append]
    congr 1
    · apply BitVec.eq_of_toNat_eq; rw [BitVec.toNat_ofNat]; omega
    · congr 1; apply BitVec.eq_of_toNat_eq; rw [BitVec.toNat_ofNat]; omega

theorem take32_some {bs rest : Bytes} {v : BitVec 32} (h : take32 bs = some (v, rest)) : bs = bytes32 v ++ rest := by
  match bs, h with
  | a :: b :: c :: d :: r, h =>
    cases h
    have ha := a.isLt
    have hb := b.isLt
    have hc := c.isLt
    have hd := d.isLt
    simp only [bytes32_toNat, word32_value, List.cons_append, List.nil_append]
    congr 1
    · apply BitVec.eq_of_toNat_eq; rw [BitVec.toNat_ofNat]; omega
    · congr 1
      · apply BitVec.eq_of_toNat_eq; rw [BitVec.toNat_ofNat]; omega
      · congr 1
        · apply BitVec.eq_of_toNat_eq; rw [BitVec.toNat_ofNat]; omega
        · congr 1; apply BitVec.eq_of_toNat_eq; rw [BitVec.toNat_ofNat]; omega

/-- A byte sequence written after its 32-bit length is read back. -/
theorem takeBytes_sized32 (bs rest : Bytes) (h : bs.length < 2 ^ 32) :
    take32 (sized32 bs ++ rest) = some (BitVec.ofNat 32 bs.length, bs ++ rest) ∧
      takeBytes (BitVec.ofNat 32 bs.length).toNat (bs ++ rest) = some (bs, rest) := by
  constructor
  · rw [sized32, List.append_assoc, take32_bytes32]
  · rw [BitVec.toNat_ofNat, Nat.mod_eq_of_lt h, takeBytes_append]

end Sys2Proof
end

