-- ==== Sys2Proof/Laws/Message.lean ====
section
/-! SUPPORT. Whole messages: what HDR_PACK, BODY_ENCODE and ENCODE's computation write, and what DECODE's computation
answers, over the wire format of Safety.lean. -/

namespace Sys2Proof.Machine

/-! ## The header (40 R100, R104) -/

theorem headerByte_pack (t : BitVec 2) (n : Nat) (h : n ≤ 8) :
    BitVec.ofNat 8 ((1 <<< 6) ||| (t.toNat <<< 4) ||| n) = (1#2 ++ t ++ BitVec.ofNat 4 n : Byte) := by
  have : ∀ (t : BitVec 2) (n : Fin 9),
      BitVec.ofNat 8 ((1 <<< 6) ||| (t.toNat <<< 4) ||| n.val) = (1#2 ++ t ++ BitVec.ofNat 4 n.val : Byte) := by decide
  exact this t ⟨n, by omega⟩

theorem headerByte_fields (v : BitVec 2) (t : BitVec 2) (k : BitVec 4) :
    (v ++ t ++ k : Byte).extractLsb' 6 2 = v ∧ (v ++ t ++ k : Byte).extractLsb' 4 2 = t ∧
      (v ++ t ++ k : Byte).extractLsb' 0 4 = k := by
  revert v t k; decide

theorem headerByte_eta (b : Byte) : (b.extractLsb' 6 2 ++ b.extractLsb' 4 2 ++ b.extractLsb' 0 4 : Byte) = b := by
  revert b; decide

theorem mid_bytes (m : BitVec 16) :
    BitVec.ofNat 8 (m.toNat >>> 8) = m.extractLsb' 8 8 ∧ BitVec.ofNat 8 (m.toNat &&& 0xFF) = m.extractLsb' 0 8 := by
  constructor
  · apply BitVec.eq_of_toNat_eq
    rw [BitVec.extractLsb'_toNat, BitVec.toNat_ofNat]
  · apply BitVec.eq_of_toNat_eq
    rw [BitVec.extractLsb'_toNat, BitVec.toNat_ofNat, Nat.and_two_pow_sub_one_eq_mod _ 8, Nat.shiftRight_zero,
      Nat.mod_mod]

theorem word16_toNat (a b : Byte) : (word16 a b).toNat = a.toNat * 256 + b.toNat := by
  have := b.isLt
  rw [word16, BitVec.toNat_append, ← Nat.shiftLeft_add_eq_or_of_lt this, Nat.shiftLeft_eq]

theorem word16_extract (m : BitVec 16) : word16 (m.extractLsb' 8 8) (m.extractLsb' 0 8) = m := by
  apply BitVec.eq_of_toNat_eq
  have := m.isLt
  rw [word16_toNat, BitVec.extractLsb'_toNat, BitVec.extractLsb'_toNat, Nat.shiftRight_eq_div_pow]
  omega

theorem extract_word16 (a b : Byte) : (word16 a b).extractLsb' 8 8 = a ∧ (word16 a b).extractLsb' 0 8 = b := by
  have ha := a.isLt
  have hb := b.isLt
  constructor
  · apply BitVec.eq_of_toNat_eq
    rw [BitVec.extractLsb'_toNat, word16_toNat, Nat.shiftRight_eq_div_pow]; omega
  · apply BitVec.eq_of_toNat_eq
    rw [BitVec.extractLsb'_toNat, word16_toNat]; omega

/-- HDR_PACK writes the header and the token over the start of the buffer. -/
theorem hdrPack_spec (m : Message) (buf : Bytes) (h : m.token.length ≤ 8) :
    hdrPack m buf = (headerBytes m ++ m.token ++ buf.drop (4 + m.token.length), 4 + m.token.length) := by
  obtain ⟨h1, h2⟩ := mid_bytes m.mid
  have s1 := memWrite_prefix [] buf [BitVec.ofNat 8 ((1 <<< 6) ||| (m.type.toNat <<< 4) ||| m.token.length)]
  have s2 := memWrite_prefix [BitVec.ofNat 8 ((1 <<< 6) ||| (m.type.toNat <<< 4) ||| m.token.length)]
    (buf.drop 1) [m.code]
  have s3 := memWrite_prefix [BitVec.ofNat 8 ((1 <<< 6) ||| (m.type.toNat <<< 4) ||| m.token.length), m.code]
    ((buf.drop 1).drop 1) [BitVec.ofNat 8 (m.mid.toNat >>> 8), BitVec.ofNat 8 (m.mid.toNat &&& 0xFF)]
  have s4 := memWrite_prefix [BitVec.ofNat 8 ((1 <<< 6) ||| (m.type.toNat <<< 4) ||| m.token.length), m.code,
    BitVec.ofNat 8 (m.mid.toNat >>> 8), BitVec.ofNat 8 (m.mid.toNat &&& 0xFF)]
    (((buf.drop 1).drop 1).drop 2) m.token
  simp only [List.nil_append, List.length_nil, List.length_cons, List.cons_append, Nat.zero_add, Nat.reduceAdd]
    at s1 s2 s3 s4
  simp only [hdrPack]
  rw [s1, s2, s3, s4]
  simp only [headerBytes, headerByte_pack m.type _ h, h1, h2, List.drop_drop, List.cons_append, List.nil_append,
    Nat.reduceAdd]

/-! ## Emission of a message (42 R164) -/

/-- BODY_ENCODE writes the entries, and the sentinel and payload if there is one, just after the part written. -/
theorem bodyEncode_spec (m : Message) (hr : Representable 0 m.opts) (hs : NumsSorted m.opts) (done junk : Bytes) :
    ∃ body, Entries 0 body m.opts ∧ body.length = optionBytes 0 m.opts ∧
      bodyEncode m (done ++ junk) done.length =
        .ok (done ++ body ++ (if m.payload = [] then [] else 0xFF :: m.payload) ++
            junk.drop (body.length + (if m.payload = [] then 0 else 1 + m.payload.length)),
          done.length + body.length + (if m.payload = [] then 0 else 1 + m.payload.length)) := by
  obtain ⟨body, hent, hlen, henc⟩ := optsEncode_spec m.opts 0 done junk hr hs (fun _ _ => Nat.zero_le _)
  refine ⟨body, hent, hlen, ?_⟩
  simp only [bodyEncode, henc, bind, Except.bind]
  rcases hp : m.payload with _ | ⟨b, p⟩
  · simp
  · have s1 := memWrite_prefix (done ++ body) (junk.drop body.length) [0xFF]
    have s2 := memWrite_prefix (done ++ body ++ [0xFF]) ((junk.drop body.length).drop 1) (b :: p)
    simp only [List.length_append, List.length_singleton] at s1 s2
    rw [if_pos (by simp)]
    simp only [List.length_append] at s1 s2 ⊢
    rw [s1, s2]
    simp only [List.drop_drop, List.append_assoc, List.cons_append, List.nil_append, List.length_cons, reduceCtorEq,
      if_false]
    have h1 : body.length + (1 + (p.length + 1)) = body.length + 1 + (p.length + 1) := by omega
    have h2 : done.length + (body.length + (1 + (p.length + 1))) = done.length + (body.length + (1 + (p.length + 1))) := rfl
    rw [h1]
    congr 2
    omega

/-- Everything ENCODE's computation can answer for a message the MRF may hold: the encoder's wire form, SIZE bytes long, or
one of its two errors, in their order (42 R165). -/
theorem encodeMessage_cases (cfg : Config) (m : Message) (ht : m.token.length ≤ 8) (hs : NumsSorted m.opts) :
    (¬ Representable 0 m.opts ∧ encodeMessage cfg m = .error .valueTooLarge) ∨
    (Representable 0 m.opts ∧ fits cfg.msgMax (wireSize m) = false ∧ encodeMessage cfg m = .error .capacityExceeded) ∨
    (Representable 0 m.opts ∧ fits cfg.msgMax (wireSize m) = true ∧
      ∃ out, encodeMessage cfg m = .ok out ∧ EncoderForm m out ∧ out.length = wireSize m) := by
  rcases sizeOf_cases m with ⟨hr, hsz⟩ | ⟨hr, hsz⟩
  · by_cases hf : fits cfg.msgMax (wireSize m) = true
    · refine .inr (.inr ⟨hr, hf, ?_⟩)
      obtain ⟨body, hent, hlen, henc⟩ := bodyEncode_spec m hr hs (headerBytes m ++ m.token)
        ((List.replicate (wireSize m) 0).drop (4 + m.token.length))
      have hl : (headerBytes m ++ m.token).length = 4 + m.token.length := by simp [headerBytes]; omega
      have hw : (if m.payload = [] then 0 else 1 + m.payload.length) =
          (if m.payload = [] then [] else 0xFF :: m.payload : Bytes).length := by split <;> simp; omega
      rw [hl] at henc
      have hdrop : ((List.replicate (wireSize m) (0 : Byte)).drop (4 + m.token.length)).drop
          (body.length + (if m.payload = [] then 0 else 1 + m.payload.length)) = [] := by
        apply List.drop_eq_nil_of_le
        simp only [List.length_drop, List.length_replicate, wireSize, hlen]; omega
      rw [hdrop, List.append_nil] at henc
      refine ⟨_, ?_, ⟨ht, body, hent, rfl⟩, ?_⟩
      · simp only [encodeMessage, hsz, bind, Except.bind, hf, hdrPack_spec m _ ht, henc]
        simp
      · simp only [List.length_append, ← hw, hlen, wireSize]
        rw [← List.length_append, hl]
    · have hf' : fits cfg.msgMax (wireSize m) = false := by simpa using hf
      refine .inr (.inl ⟨hr, hf', ?_⟩)
      simp only [encodeMessage, hsz, bind, Except.bind, hf', if_true]
  · exact .inl ⟨hr, by simp only [encodeMessage, hsz, bind, Except.bind]⟩

/-! ## Decoding a message (42 R161) -/

theorem decodeHeader_headerBytes (m : Message) (rest : Bytes) :
    decodeHeader (headerBytes m ++ rest) = some (.hdr 1 m.type (BitVec.ofNat 4 m.token.length) m.code m.mid, rest) := by
  obtain ⟨h1, h2, h3⟩ := headerByte_fields 1#2 m.type (BitVec.ofNat 4 m.token.length)
  simp only [headerBytes, List.cons_append, List.nil_append, decodeHeader, h1, h2, h3, word16_extract]
  rfl

/-- HDR_PARSE reads back the header bytes of a message. -/
theorem hdrParse_headerBytes (m : Message) (rest : Bytes) (h : m.token.length ≤ 8) :
    hdrParse (headerBytes m ++ rest) = .ok ⟨m.type, BitVec.ofNat 4 m.token.length, m.code, m.mid⟩ := by
  have hk : (BitVec.ofNat 4 m.token.length).toNat = m.token.length := by rw [BitVec.toNat_ofNat]; omega
  simp only [hdrParse, decodeHeader_headerBytes]
  rcases hdrCheck_cases (headerBytes m ++ rest).length 1 ⟨m.type, BitVec.ofNat 4 m.token.length, m.code, m.mid⟩ with
    ⟨h4, -⟩ | ⟨-, hv, -⟩ | ⟨-, -, h8, -⟩ | ⟨-, -, -, hok⟩
  · simp [headerBytes] at h4; omega
  · exact absurd rfl hv
  · simp only [hk] at h8; omega
  · exact hok

/-- Everything HDR_PARSE can answer: the fields of the four bytes it reads, or one of its errors. -/
theorem hdrParse_cases (buf : Bytes) :
    (∃ (h : Header) (rest : Bytes), hdrParse buf = .ok h ∧ h.tkl.toNat ≤ 8 ∧
      buf = (1#2 ++ h.type ++ h.tkl : Byte) :: h.code :: h.mid.extractLsb' 8 8 :: h.mid.extractLsb' 0 8 :: rest) ∨
    (∃ e ∈ [Err.bufferTooShort, .unsupportedVersion, .invalidTokenLength], hdrParse buf = .error e) := by
  match buf with
  | [] | [_] | [_, _] | [_, _, _] => exact .inr ⟨.bufferTooShort, by simp, rfl⟩
  | b0 :: b1 :: b2 :: b3 :: rest =>
    simp only [hdrParse, decodeHeader]
    rcases hdrCheck_cases (b0 :: b1 :: b2 :: b3 :: rest).length (b0.extractLsb' 6 2)
        ⟨b0.extractLsb' 4 2, b0.extractLsb' 0 4, b1, word16 b2 b3⟩ with
      ⟨-, h⟩ | ⟨-, -, h⟩ | ⟨-, -, -, h⟩ | ⟨-, hv, h8, h⟩
    · exact .inr ⟨_, by simp, h⟩
    · exact .inr ⟨_, by simp, h⟩
    · exact .inr ⟨_, by simp, h⟩
    · refine .inl ⟨_, rest, h, h8, ?_⟩
      obtain ⟨h1, h2⟩ := extract_word16 b2 b3
      have h0 := headerByte_eta b0
      rw [hv] at h0
      simp only [h1, h2]
      exact congrArg (· :: _) h0.symm

/-- Everything DECODE's computation can answer: a message whose wire form the operand is, or one of DECODE's errors. -/
theorem decodeMessage_cases (cfg : Config) (b : Bytes) :
    (∃ m, fits cfg.msgMax b.length = true ∧ MessageForm m b ∧ fits cfg.optMax m.opts.length = true ∧
      decodeMessage cfg b = .ok m) ∨
    (∃ e ∈ [Err.bufferTooShort, .unsupportedVersion, .invalidTokenLength, .truncatedToken, .reservedLengthField,
      .truncatedOption, .numberOverflow, .capacityExceeded], decodeMessage cfg b = .error e) := by
  by_cases hf : fits cfg.msgMax b.length = true
  swap
  · have hf' : fits cfg.msgMax b.length = false := by simpa using hf
    exact .inr ⟨.capacityExceeded, by simp, by rw [decodeMessage, if_pos hf']⟩
  have hcfg : ¬ fits cfg.msgMax b.length = false := by simp [hf]
  rcases hdrParse_cases b with ⟨h, rest, hp, h8, hb⟩ | ⟨e, he, hp⟩
  swap
  · refine .inr ⟨e, ?_, by rw [decodeMessage, if_neg hcfg]; simp only [hp, bind, Except.bind]⟩
    simp only [List.mem_cons, List.not_mem_nil, or_false] at he ⊢; tauto
  rcases tokenExtract_cases b h.tkl.toNat with ⟨-, ht⟩ | ⟨hle, ht⟩
  · exact .inr ⟨.truncatedToken, by simp, by rw [decodeMessage, if_neg hcfg]; simp only [hp, ht, bind, Except.bind]⟩
  have hlen : b.length = 4 + rest.length := by rw [hb]; simp; omega
  have htok : (b.drop 4).take h.tkl.toNat = rest.take h.tkl.toNat := by rw [hb]; rfl
  have htl : (rest.take h.tkl.toNat).length = h.tkl.toNat := by rw [List.length_take]; omega
  have hk : BitVec.ofNat 4 h.tkl.toNat = h.tkl := by simp
  have hform (opts : List Opt) (p body tail : Bytes) (hd : rest.drop h.tkl.toNat = body ++ tail)
      (hent : Entries 0 body opts) :
      WireForm ⟨h.type, h.code, h.mid, rest.take h.tkl.toNat, opts, p⟩ tail b := by
    refine ⟨by rw [htl]; exact h8, body, hent, ?_⟩
    simp only [headerBytes, htl, hk, List.cons_append, List.nil_append, List.append_assoc]
    rw [← hd, List.take_append_drop]; exact hb
  have hdrop : b.drop (4 + h.tkl.toNat) = rest.drop h.tkl.toNat := by
    rw [← List.drop_drop, hb]; rfl
  rw [htok] at ht
  by_cases hend : 4 + h.tkl.toNat = b.length
  · refine .inl ⟨⟨h.type, h.code, h.mid, rest.take h.tkl.toNat, [], []⟩, hf, .inl ⟨rfl, ?_⟩, ?_, ?_⟩
    · exact hform [] [] [] [] (by rw [← hdrop, List.drop_eq_nil_of_le (by omega)]; rfl) (.nil _)
    · cases cfg.optMax <;> simp [fits]
    · rw [decodeMessage, if_neg hcfg]; simp only [hp, ht, bind, Except.bind, if_pos hend]
  · rcases optSeqDecode_cases cfg b (b.length - (4 + h.tkl.toNat)) (4 + h.tkl.toNat) 0 [] (Nat.le_refl _) (by omega)
        (by cases cfg.optMax <;> simp [fits]) with
      ⟨new, body, tail, p, hd, hent, htail, hfit, hok⟩ | ⟨e, he, herr⟩
    · refine .inl ⟨⟨h.type, h.code, h.mid, rest.take h.tkl.toNat, new, p⟩, hf, ?_, by simpa using hfit, ?_⟩
      · rw [hdrop] at hd
        rcases htail with ⟨rfl, rfl⟩ | rfl
        · exact .inl ⟨rfl, hform new [] body [] hd hent⟩
        · exact .inr (hform new p body _ hd hent)
      · rw [decodeMessage, if_neg hcfg]
        simp only [hp, ht, bind, Except.bind, if_neg hend, hok, List.nil_append]
    · refine .inr ⟨e, ?_, ?_⟩
      · simp only [List.mem_cons, List.not_mem_nil, or_false] at he ⊢; tauto
      · rw [decodeMessage, if_neg hcfg]
        simp only [hp, ht, bind, Except.bind, if_neg hend, herr]

/-- DECODE's computation on the wire form of a message. -/
theorem decodeMessage_of_form {cfg : Config} {m : Message} {b : Bytes} (hf : fits cfg.msgMax b.length = true)
    (hm : MessageForm m b) (ho : fits cfg.optMax m.opts.length = true) : decodeMessage cfg b = .ok m := by
  have main (tail : Bytes) (hw : WireForm m tail b)
      (htail : (tail = [] ∧ m.payload = []) ∨ tail = 0xFF :: m.payload) : decodeMessage cfg b = .ok m := by
    obtain ⟨h8, body, hent, hb⟩ := hw
    have hk : (BitVec.ofNat 4 m.token.length).toNat = m.token.length := by rw [BitVec.toNat_ofNat]; omega
    have hb' : b = headerBytes m ++ (m.token ++ (body ++ tail)) := by rw [hb]; simp
    have hp : hdrParse b = .ok ⟨m.type, BitVec.ofNat 4 m.token.length, m.code, m.mid⟩ := by
      rw [hb']; exact hdrParse_headerBytes m _ h8
    have h4 : (headerBytes m).length = 4 := rfl
    have hd4 : b.drop 4 = m.token ++ (body ++ tail) := by rw [hb', ← h4, List.drop_left]
    have hd : b.drop (4 + m.token.length) = body ++ tail := drop_add_of_drop_eq hd4
    have hlen : b.length = 4 + m.token.length + (body ++ tail).length := by rw [hb']; simp [h4]; omega
    have ht : tokenExtract b (BitVec.ofNat 4 m.token.length).toNat = .ok (m.token, 4 + m.token.length) := by
      rw [hk]
      rcases tokenExtract_cases b m.token.length with ⟨hlt, -⟩ | ⟨-, h⟩
      · omega
      · rw [h, hd4, List.take_left]
    have hcfg : ¬ fits cfg.msgMax b.length = false := by simp [hf]
    rw [decodeMessage, if_neg hcfg]
    simp only [hp, ht, bind, Except.bind]
    by_cases hend : 4 + m.token.length = b.length
    · have hnil : body ++ tail = [] := List.eq_nil_of_length_eq_zero (by omega)
      obtain ⟨rfl, rfl⟩ := List.append_eq_nil_iff.mp hnil
      rcases htail with ⟨-, hpay⟩ | h
      · rw [if_pos hend]
        have : m.opts = [] := by
          generalize m.opts = o at hent
          cases hent; rfl
        rcases m with ⟨t, c, i, tok, o, p⟩
        simp only at this hpay
        subst this hpay; rfl
      · cases h
    · rw [if_neg hend]
      have := optSeqDecode_of_form cfg b (b.length - (4 + m.token.length)) (4 + m.token.length) 0 [] m.opts body tail
        m.payload (Nat.le_refl _) hd (by omega) hent htail (by simpa using ho)
      rw [this]; rfl
  rcases hm with ⟨hp, hw⟩ | hw
  · exact main [] hw (.inl ⟨rfl, hp⟩)
  · exact main _ hw (.inr rfl)

end Sys2Proof.Machine
end

