-- ==== Sys2Proof/Laws/PerInstr.lean ====
section
/-! SUPPORT. Statements about every instruction, one lemma per constructor. -/

namespace Sys2Proof

/-- The "length_bytes" column of spec/opcode_table.json: the bytes of a command, of the fixed header, or of a descriptor
byte (without the extension bytes, the value, the token or the payload that follow it on the wire). -/
def Instr.tableLength : Instr → Nat
  | .decode bs => 5 + bs.length
  | .encode | .clear | .reservedOpcode _ => 1
  | .setType _ | .setCode _ => 2
  | .setMid _ => 3
  | .setToken bs => 2 + bs.length
  | .addOption _ bs => 9 + bs.length
  | .setPayload bs => 5 + bs.length
  | .read _ _ | .readVer _ | .readType _ | .readTkl _ | .readCode _ | .readMid _ | .readToken _ | .readOptCount _
  | .readOptNum _ | .readOptVal _ | .readPayload _ | .readStatus _ | .readOutLen _ | .readOut _
  | .readReserved _ _ => 6
  | .hdr _ _ _ _ _ => 4
  | .sentinel | .optLL _ _ | .optLB _ | .optLW _ | .optBL _ | .optBB | .optBW | .optWL _ | .optWB | .optWW
  | .optRD _ | .optRL _ => 1

namespace Laws.EncodeLength

/-- The encoding of an instruction is as long as the table says. -/
def Statement (i : Instr) : Prop := (Sys2Proof.encode i).length = i.tableLength

theorem decode (bs : Bytes) : Statement (.decode bs) := by
  simp [Statement, Sys2Proof.encode, sized32, bytes32, Instr.tableLength]; omega
theorem encode : Statement .encode := rfl
theorem clear : Statement .clear := rfl
theorem setType (t : Byte) : Statement (.setType t) := rfl
theorem setCode (c : Byte) : Statement (.setCode c) := rfl
theorem setMid (m : BitVec 16) : Statement (.setMid m) := rfl
theorem setToken (bs : Bytes) : Statement (.setToken bs) := by
  simp [Statement, Sys2Proof.encode, Instr.tableLength]; omega
theorem addOption (num : BitVec 32) (bs : Bytes) : Statement (.addOption num bs) := by
  simp [Statement, Sys2Proof.encode, sized32, bytes32, Instr.tableLength]; omega
theorem setPayload (bs : Bytes) : Statement (.setPayload bs) := by
  simp [Statement, Sys2Proof.encode, sized32, bytes32, Instr.tableLength]; omega
theorem read (sel : Byte) (idx : BitVec 32) : Statement (.read sel idx) := rfl
theorem reservedOpcode (op : Byte) : Statement (.reservedOpcode op) := rfl
theorem readVer (idx : BitVec 32) : Statement (.readVer idx) := rfl
theorem readType (idx : BitVec 32) : Statement (.readType idx) := rfl
theorem readTkl (idx : BitVec 32) : Statement (.readTkl idx) := rfl
theorem readCode (idx : BitVec 32) : Statement (.readCode idx) := rfl
theorem readMid (idx : BitVec 32) : Statement (.readMid idx) := rfl
theorem readToken (idx : BitVec 32) : Statement (.readToken idx) := rfl
theorem readOptCount (idx : BitVec 32) : Statement (.readOptCount idx) := rfl
theorem readOptNum (idx : BitVec 32) : Statement (.readOptNum idx) := rfl
theorem readOptVal (idx : BitVec 32) : Statement (.readOptVal idx) := rfl
theorem readPayload (idx : BitVec 32) : Statement (.readPayload idx) := rfl
theorem readStatus (idx : BitVec 32) : Statement (.readStatus idx) := rfl
theorem readOutLen (idx : BitVec 32) : Statement (.readOutLen idx) := rfl
theorem readOut (idx : BitVec 32) : Statement (.readOut idx) := rfl
theorem readReserved (sel : Byte) (idx : BitVec 32) : Statement (.readReserved sel idx) := rfl
theorem hdr (ver : BitVec 2) (type : BitVec 2) (tkl : BitVec 4) (code : Byte) (mid : BitVec 16) : Statement (.hdr ver type tkl code mid) := rfl
theorem sentinel : Statement .sentinel := rfl
theorem optLL (d : BitVec 4) (l : BitVec 4) : Statement (.optLL d l) := rfl
theorem optLB (d : BitVec 4) : Statement (.optLB d) := rfl
theorem optLW (d : BitVec 4) : Statement (.optLW d) := rfl
theorem optBL (l : BitVec 4) : Statement (.optBL l) := rfl
theorem optBB : Statement .optBB := rfl
theorem optBW : Statement .optBW := rfl
theorem optWL (l : BitVec 4) : Statement (.optWL l) := rfl
theorem optWB : Statement .optWB := rfl
theorem optWW : Statement .optWW := rfl
theorem optRD (l : BitVec 4) : Statement (.optRD l) := rfl
theorem optRL (d : BitVec 4) : Statement (.optRL d) := rfl

end Laws.EncodeLength

end Sys2Proof
end

