-- ==== Sys2Proof/Laws/Step.lean ====
section
/-! SUPPORT. Everything an executed instruction and a step can do, said once: the shape of every next state. -/

namespace Sys2Proof.Machine

/-- What a successful command commits: the message and the OUT it leaves (42 R161 to R172). -/
inductive Commits (s : State) : Instr → Message → Bytes → Prop where
  | decode (b : Bytes) (m : Message) (h : decodeMessage s.cfg b = .ok m) : Commits s (.decode b) m s.out
  | encode (out : Bytes) (h : encodeMessage s.cfg s.mrf = .ok out) : Commits s .encode s.mrf out
  | clear : Commits s .clear Message.default s.out
  | setType (t : Byte) (h : t.toNat ≤ 3) : Commits s (.setType t) { s.mrf with type := t.setWidth 2 } s.out
  | setCode (c : Byte) : Commits s (.setCode c) { s.mrf with code := c } s.out
  | setMid (v : BitVec 16) : Commits s (.setMid v) { s.mrf with mid := v } s.out
  | setToken (token : Bytes) (h : token.length ≤ 8) : Commits s (.setToken token) { s.mrf with token } s.out
  | addOption (num : BitVec 32) (val : Bytes) (hc : s.cfg.optMax ≠ some s.mrf.opts.length)
      (hs : fits s.cfg.storeMax (valueBytes s.mrf.opts + s.mrf.payload.length + val.length) = true) :
      Commits s (.addOption num val) { s.mrf with opts := insertOpt s.mrf.opts num val } s.out
  | setPayload (payload : Bytes) (h : fits s.cfg.storeMax (valueBytes s.mrf.opts + payload.length) = true) :
      Commits s (.setPayload payload) { s.mrf with payload } s.out

/-- Everything the next state of a command other than READ can be. -/
theorem command_next {i : Instr} {s t : State} (hf : i.format = .cmd) (hn : ∀ sel idx, i ≠ .read sel idx)
    (h : exec i s = .next t) :
    s.work = .idle ∧
      ((∃ m out, Commits s i m out ∧ t = State.afterSuccess { s with mrf := m, out }) ∨ ∃ e, t = s.afterError e) := by
  cases i with
  | decode b =>
    obtain ⟨hw, ⟨s', hr, rfl⟩ | ⟨e, -, rfl⟩⟩ := runCommand_next h
    · refine ⟨hw, .inl ?_⟩
      rcases hd : decodeMessage s.cfg b with e | m <;> rw [hd] at hr <;> cases hr
      exact ⟨m, s.out, .decode b m hd, rfl⟩
    · exact ⟨hw, .inr ⟨e, rfl⟩⟩
  | encode =>
    obtain ⟨hw, ⟨s', hr, rfl⟩ | ⟨e, -, rfl⟩⟩ := runCommand_next h
    · refine ⟨hw, .inl ?_⟩
      rcases hd : encodeMessage s.cfg s.mrf with e | out <;> rw [hd] at hr <;> cases hr
      exact ⟨s.mrf, out, .encode out hd, rfl⟩
    · exact ⟨hw, .inr ⟨e, rfl⟩⟩
  | clear =>
    rw [exec, execClear] at h
    obtain ⟨hw, ⟨s', hr, rfl⟩ | ⟨e, hr, rfl⟩⟩ := runCommand_next h <;> cases hr
    exact ⟨hw, .inl ⟨_, _, .clear, rfl⟩⟩
  | setType v =>
    obtain ⟨hw, ⟨s', hr, rfl⟩ | ⟨e, -, rfl⟩⟩ := runCommand_next h
    · refine ⟨hw, .inl ?_⟩
      split at hr
      · cases hr
      · cases hr; exact ⟨_, _, .setType v (by omega), rfl⟩
    · exact ⟨hw, .inr ⟨e, rfl⟩⟩
  | setCode c =>
    rw [exec, execSetCode] at h
    obtain ⟨hw, ⟨s', hr, rfl⟩ | ⟨e, hr, rfl⟩⟩ := runCommand_next h <;> cases hr
    exact ⟨hw, .inl ⟨_, _, .setCode c, rfl⟩⟩
  | setMid v =>
    rw [exec, execSetMid] at h
    obtain ⟨hw, ⟨s', hr, rfl⟩ | ⟨e, hr, rfl⟩⟩ := runCommand_next h <;> cases hr
    exact ⟨hw, .inl ⟨_, _, .setMid v, rfl⟩⟩
  | setToken v =>
    obtain ⟨hw, ⟨s', hr, rfl⟩ | ⟨e, -, rfl⟩⟩ := runCommand_next h
    · refine ⟨hw, .inl ?_⟩
      split at hr
      · cases hr
      · cases hr; exact ⟨_, _, .setToken v (by omega), rfl⟩
    · exact ⟨hw, .inr ⟨e, rfl⟩⟩
  | addOption num val =>
    obtain ⟨hw, ⟨s', hr, rfl⟩ | ⟨e, -, rfl⟩⟩ := runCommand_next h
    · refine ⟨hw, .inl ?_⟩
      split at hr
      · cases hr
      · rename_i hc
        split at hr
        · cases hr
        · rename_i hs
          cases hr; exact ⟨_, _, .addOption num val hc (by simpa using hs), rfl⟩
    · exact ⟨hw, .inr ⟨e, rfl⟩⟩
  | setPayload v =>
    obtain ⟨hw, ⟨s', hr, rfl⟩ | ⟨e, -, rfl⟩⟩ := runCommand_next h
    · refine ⟨hw, .inl ?_⟩
      split at hr
      · cases hr
      · rename_i hs
        cases hr; exact ⟨_, _, .setPayload v (by simpa using hs), rfl⟩
    · exact ⟨hw, .inr ⟨e, rfl⟩⟩
  | reservedOpcode op =>
    rw [exec, execReservedOpcode] at h
    obtain ⟨hw, ⟨s', hr, rfl⟩ | ⟨e, hr, rfl⟩⟩ := runCommand_next h <;> cases hr
    exact ⟨hw, .inr ⟨_, rfl⟩⟩
  | read sel idx => exact absurd rfl (hn sel idx)
  | _ => cases hf

/-- READ is the row of its selector (30 R88, 42 R173). -/
theorem exec_read (sel : Byte) (idx : BitVec 32) (s : State) : exec (.read sel idx) s = exec (selectRow sel idx) s := by
  simp only [exec, execRead, selectRow]
  by_cases h : sel.toNat ≤ 12
  · interval_cases hx : sel.toNat <;> rfl
  · obtain ⟨k, hk⟩ : ∃ k, sel.toNat = k + 13 := ⟨sel.toNat - 13, by omega⟩
    rw [hk]; rfl

theorem selectRow_format (sel : Byte) (idx : BitVec 32) : (selectRow sel idx).format = .readSel := by
  unfold selectRow; split <;> rfl

/-- A READ row's next state has one more response, and differs in nothing else (42 R173). -/
theorem readRow_next {i : Instr} {s t : State} (hf : i.format = .readSel) (h : exec i s = .next t) :
    s.work = .idle ∧ ∃ e d, t = s.respond e d := by
  cases i <;> first
    | (cases hf; done)
    | (simp only [exec, execReadVer, execReadType, execReadTkl, execReadCode, execReadMid, execReadToken,
         execReadOptCount, execReadOptNum, execReadOptVal, execReadPayload, execReadStatus, execReadOutLen, execReadOut,
         execReadReserved] at h
       obtain ⟨hw, ⟨d, -, rfl⟩ | ⟨e, -, rfl⟩⟩ := runRead_next h
       · exact ⟨hw, none, d, rfl⟩
       · exact ⟨hw, some e, [], rfl⟩)

theorem read_next {i : Instr} {s t : State} (hi : (∃ sel idx, i = .read sel idx) ∨ i.format = .readSel)
    (h : exec i s = .next t) : s.work = .idle ∧ ∃ e d, t = s.respond e d := by
  rcases hi with ⟨sel, idx, rfl⟩ | hf
  · rw [exec_read] at h; exact readRow_next (selectRow_format sel idx) h
  · exact readRow_next hf h

/-- A resolver moves the cursor forward, and never past the end of the buffer by bytes it consumed (20 R51). -/
def Resolver.Bounded (d : Resolver) : Prop :=
  ∀ (buf : Bytes) (pos v p : Nat), d buf pos = .ok (v, p) → ∃ ext, p = pos + ext ∧ (0 < ext → p ≤ buf.length)

theorem resolveL_bounded (n : BitVec 4) : (resolveL n).Bounded := by
  intro buf pos v p h; cases h; exact ⟨0, rfl, fun h => absurd h (by decide)⟩

theorem resolveB_bounded : resolveB.Bounded := by
  intro buf pos v p h
  unfold resolveB at h
  split at h <;> cases h
  exact ⟨1, rfl, fun _ => by omega⟩

theorem resolveW_bounded : resolveW.Bounded := by
  intro buf pos v p h
  unfold resolveW at h
  split at h <;> cases h
  exact ⟨2, rfl, fun _ => by omega⟩

theorem resolveR_bounded : resolveR.Bounded := by
  intro buf pos v p h; cases h

theorem extResolve_bounded (n : BitVec 4) : (extResolve n).Bounded := by
  unfold extResolve
  split
  · exact resolveL_bounded n
  · exact resolveB_bounded
  · exact resolveW_bounded
  · exact resolveR_bounded

/-- What a wire unit that does not end the DECODE does to its working variables: the header (40 R100, R103), or one option
entry (41 R126, R129). -/
inductive Advances (cfg : Config) (w : DecodeWork) : DecodeWork → Prop where
  | header (h : Header) (hst : w.stage = .header) (h8 : h.tkl.toNat ≤ 8) (hlen : 4 + h.tkl.toNat ≤ w.inBuf.length) :
      Advances cfg w { w with
        pos := 4 + h.tkl.toNat
        stage := .options
        msg := { w.msg with
          type := h.type, code := h.code, mid := h.mid, token := (w.inBuf.drop 4).take h.tkl.toNat } }
  | entry (delta ext len : Nat) (hst : w.stage = .options) (hl : len ≤ w.inBuf.length - (w.pos + 1 + ext))
      (hx : 0 < ext → w.pos + 1 + ext ≤ w.inBuf.length) (hn : w.num.toNat + delta ≤ 0xFFFFFFFF)
      (hc : cfg.optMax ≠ some w.msg.opts.length) :
      Advances cfg w { w with
        pos := w.pos + 1 + ext + len
        num := BitVec.ofNat 32 (w.num.toNat + delta)
        msg := { w.msg with
          opts := w.msg.opts ++ [⟨BitVec.ofNat 32 (w.num.toNat + delta), memRead w.inBuf (w.pos + 1 + ext) len⟩] } }

/-- Everything an option entry's next state can be. -/
theorem entryUnit_next {d l : Resolver} (hd : d.Bounded) (hl : l.Bounded) {s t : State} (h : entryUnit d l s = .next t) :
    ∃ w, s.work = .decoding w ∧ ((∃ w', Advances s.cfg w w' ∧ t = { s with work := .decoding w' }) ∨
      ∃ e, t = State.afterError { s with work := .idle } e) := by
  obtain ⟨w, hw, hst, hr | ⟨e, -, rfl⟩⟩ := inDecode_next h
  swap
  · exact ⟨w, hw, .inr ⟨e, rfl⟩⟩
  refine ⟨w, hw, .inl ?_⟩
  simp only [entryBody, bind, Except.bind] at hr
  rcases h1 : d w.inBuf (w.pos + 1) with e | ⟨delta, p1⟩ <;> simp only [h1] at hr
  · cases hr
  rcases h2 : l w.inBuf p1 with e | ⟨len, p2⟩ <;> simp only [h2] at hr
  · cases hr
  obtain ⟨x1, rfl, b1⟩ := hd _ _ _ _ h1
  obtain ⟨x2, rfl, b2⟩ := hl _ _ _ _ h2
  by_cases hv : w.inBuf.length - (w.pos + 1 + x1 + x2) < len
  · rw [if_pos hv] at hr; cases hr
  by_cases ho : w.num.toNat + delta > 0xFFFFFFFF
  · rw [if_neg hv, if_pos ho] at hr; cases hr
  rw [if_neg hv, if_neg ho] at hr
  rcases appendOpt_cases s.cfg w.msg.opts
      ⟨BitVec.ofNat 32 (w.num.toNat + delta), memRead w.inBuf (w.pos + 1 + x1 + x2) len⟩ with ⟨-, ha⟩ | ⟨hc, ha⟩
  · simp only [ha] at hr; cases hr
  · simp only [ha] at hr; cases hr
    rw [Nat.add_assoc (w.pos + 1) x1 x2] at *
    exact ⟨_, .entry delta (x1 + x2) len hst (by omega) (by omega) (by omega) hc, rfl⟩

/-- Everything a wire unit's next state can be: the DECODE goes on, commits at the sentinel, or fails. -/
theorem unit_next {i : Instr} {s t : State} (hf : i.format = .wireHeader ∨ i.format = .wireDesc)
    (h : exec i s = .next t) :
    ∃ w, s.work = .decoding w ∧
      ((∃ w', Advances s.cfg w w' ∧ t = { s with work := .decoding w' }) ∨
        (w.stage = .options ∧ t = s.commitDecode
          { w.msg with payload := memRead w.inBuf (w.pos + 1) (w.inBuf.length - w.pos - 1) }) ∨
        ∃ e, t = State.afterError { s with work := .idle } e) := by
  have entry {d l : Resolver} (hd : d.Bounded) (hl : l.Bounded) (h : entryUnit d l s = .next t) : ∃ w, s.work = .decoding w ∧
      ((∃ w', Advances s.cfg w w' ∧ t = { s with work := .decoding w' }) ∨
        (w.stage = .options ∧ t = s.commitDecode
          { w.msg with payload := memRead w.inBuf (w.pos + 1) (w.inBuf.length - w.pos - 1) }) ∨
        ∃ e, t = State.afterError { s with work := .idle } e) := by
    obtain ⟨w, hw, h | h⟩ := entryUnit_next hd hl h
    · exact ⟨w, hw, .inl h⟩
    · exact ⟨w, hw, .inr (.inr h)⟩
  cases i with
  | hdr ver type tkl code mid =>
    obtain ⟨w, hw, hst, hr | ⟨e, -, rfl⟩⟩ := inDecode_next h
    · refine ⟨w, hw, .inl ?_⟩
      rcases hdrCheck_cases w.inBuf.length ver ⟨type, tkl, code, mid⟩ with
        ⟨-, hc⟩ | ⟨-, -, hc⟩ | ⟨-, -, -, hc⟩ | ⟨h4, -, h8, hc⟩
      · rw [hc] at hr; cases hr
      · rw [hc] at hr; cases hr
      · rw [hc] at hr; cases hr
      · rw [hc] at hr
        simp only [bind, Except.bind] at hr
        rcases tokenExtract_cases w.inBuf tkl.toNat with ⟨-, ht⟩ | ⟨hle, ht⟩
        · rw [ht] at hr; cases hr
        · rw [ht] at hr; cases hr; exact ⟨_, .header ⟨type, tkl, code, mid⟩ hst h8 (by show 4 + tkl.toNat ≤ _; omega), rfl⟩
    · exact ⟨w, hw, .inr (.inr ⟨e, rfl⟩)⟩
  | sentinel =>
    rw [exec, execSentinel] at h
    obtain ⟨w, hw, hst, hr | ⟨e, -, rfl⟩⟩ := inDecode_next h
    · cases hr; exact ⟨w, hw, .inr (.inl ⟨hst, rfl⟩)⟩
    · exact ⟨w, hw, .inr (.inr ⟨e, rfl⟩)⟩
  | optLL d l => exact entry (resolveL_bounded d) (resolveL_bounded l) h
  | optLB d => exact entry (resolveL_bounded d) resolveB_bounded h
  | optLW d => exact entry (resolveL_bounded d) resolveW_bounded h
  | optBL l => exact entry resolveB_bounded (resolveL_bounded l) h
  | optBB => exact entry resolveB_bounded resolveB_bounded h
  | optBW => exact entry resolveB_bounded resolveW_bounded h
  | optWL l => exact entry resolveW_bounded (resolveL_bounded l) h
  | optWB => exact entry resolveW_bounded resolveB_bounded h
  | optWW => exact entry resolveW_bounded resolveW_bounded h
  | optRD l => rw [exec, execOptRD] at h; exact entry resolveR_bounded (extResolve_bounded l) h
  | optRL d => exact entry (extResolve_bounded d) resolveR_bounded h
  | _ => simp [Instr.format] at hf

/-! ## History (10 R20) -/

/-- A non-READ command in an idle block is the command of the block alone, its ports put back. -/
theorem runCommand_alone {s : State} (h : s.work = .idle) {r ra : Except Err State}
    (hr : (∃ m o, ra = .ok { s.alone with mrf := m, out := o } ∧ r = .ok { s with mrf := m, out := o }) ∨
      ∃ e, ra = .error e ∧ r = .error e) :
    ∃ a, runCommand s.alone ra = .next a ∧ runCommand s r = .next (a.atPorts s.input s.responses) := by
  have hs : ({ s with work := .idle } : State) = s := by cases s; cases h; rfl
  rcases hr with ⟨m, o, rfl, rfl⟩ | ⟨e, rfl, rfl⟩
  · refine ⟨_, runCommand_idle rfl _, (runCommand_idle h _).trans ?_⟩
    show Host.Outcome.next _ = Host.Outcome.next { ({ s with work := .idle } : State) with
      mrf := m, out := o, status := 0x0001, responses := ⟨none, []⟩ :: s.responses }
    rw [hs]; rfl
  · refine ⟨_, runCommand_idle rfl _, (runCommand_idle h _).trans ?_⟩
    show Host.Outcome.next _ = Host.Outcome.next { ({ s with work := .idle } : State) with
      status := errCode (some e) ++ 0x03#8, responses := ⟨some e, []⟩ :: s.responses }
    rw [hs]; rfl

/-- A READ in an idle block is the READ of the block alone, its ports put back. -/
theorem runRead_alone {s : State} (h : s.work = .idle) (r : Except Err Bytes) :
    ∃ a, runRead s.alone r = .next a ∧ runRead s r = .next (a.atPorts s.input s.responses) := by
  have hs : ({ s with work := .idle } : State) = s := by cases s; cases h; rfl
  rcases r with e | d
  · refine ⟨_, runRead_idle rfl _, (runRead_idle h _).trans ?_⟩
    show Host.Outcome.next _ = Host.Outcome.next { ({ s with work := .idle } : State) with
      responses := ⟨some e, []⟩ :: s.responses }
    rw [hs]; rfl
  · refine ⟨_, runRead_idle rfl _, (runRead_idle h _).trans ?_⟩
    show Host.Outcome.next _ = Host.Outcome.next { ({ s with work := .idle } : State) with
      responses := ⟨none, d⟩ :: s.responses }
    rw [hs]; rfl

theorem readRow_alone {i : Instr} {s : State} (hf : i.format = .readSel) (h : s.work = .idle) :
    ∃ a, exec i s.alone = .next a ∧ exec i s = .next (a.atPorts s.input s.responses) := by
  cases i
  all_goals first
    | (cases hf; done)
    | skip
  all_goals
    simp only [exec, execReadVer, execReadType, execReadTkl, execReadCode, execReadMid, execReadToken, execReadOptCount,
      execReadOptNum, execReadOptVal, execReadPayload, execReadStatus, execReadOutLen, execReadOut, execReadReserved]
    exact runRead_alone h _

/-- A host command in an idle block does what it does in the block alone, whatever stands at the ports: it reads neither
the bytes behind it nor the responses given before. -/
theorem exec_alone {i : Instr} {s : State} (hf : i.format = .cmd ∨ i.format = .readSel) (h : s.work = .idle) :
    ∃ a, exec i s.alone = .next a ∧ exec i s = .next (a.atPorts s.input s.responses) := by
  cases i with
  | decode b =>
    refine runCommand_alone h ?_
    rw [State.alone_cfg]
    rcases decodeMessage s.cfg b with e | m
    · exact .inr ⟨e, rfl, rfl⟩
    · exact .inl ⟨m, s.out, rfl, rfl⟩
  | encode =>
    refine runCommand_alone h ?_
    rw [State.alone_cfg, State.alone_mrf]
    rcases encodeMessage s.cfg s.mrf with e | out
    · exact .inr ⟨e, rfl, rfl⟩
    · exact .inl ⟨s.mrf, out, rfl, rfl⟩
  | clear => rw [exec, exec, execClear, execClear]; exact runCommand_alone h (.inl ⟨_, s.out, rfl, rfl⟩)
  | setCode c => rw [exec, exec, execSetCode, execSetCode]; exact runCommand_alone h (.inl ⟨_, s.out, rfl, rfl⟩)
  | setMid v => rw [exec, exec, execSetMid, execSetMid]; exact runCommand_alone h (.inl ⟨_, s.out, rfl, rfl⟩)
  | reservedOpcode op =>
    rw [exec, exec, execReservedOpcode, execReservedOpcode]; exact runCommand_alone h (.inr ⟨_, rfl, rfl⟩)
  | setType t =>
    by_cases ht : t.toNat > 3
    · exact runCommand_alone h (.inr ⟨.invalidType, if_pos ht, if_pos ht⟩)
    · exact runCommand_alone h (.inl ⟨_, s.out, if_neg ht, if_neg ht⟩)
  | setToken v =>
    by_cases ht : v.length > 8
    · exact runCommand_alone h (.inr ⟨.tokenTooLong, if_pos ht, if_pos ht⟩)
    · exact runCommand_alone h (.inl ⟨_, s.out, if_neg ht, if_neg ht⟩)
  | addOption num val =>
    by_cases hc : s.cfg.optMax = some s.mrf.opts.length
    · exact runCommand_alone h (.inr ⟨.capacityExceeded, if_pos hc, if_pos hc⟩)
    · by_cases hs : fits s.cfg.storeMax (valueBytes s.mrf.opts + s.mrf.payload.length + val.length) = false
      · exact runCommand_alone h
          (.inr ⟨.capacityExceeded, (if_neg hc).trans (if_pos hs), (if_neg hc).trans (if_pos hs)⟩)
      · exact runCommand_alone h (.inl ⟨_, s.out, (if_neg hc).trans (if_neg hs), (if_neg hc).trans (if_neg hs)⟩)
  | setPayload v =>
    by_cases hs : fits s.cfg.storeMax (valueBytes s.mrf.opts + v.length) = false
    · exact runCommand_alone h (.inr ⟨.capacityExceeded, if_pos hs, if_pos hs⟩)
    · exact runCommand_alone h (.inl ⟨_, s.out, if_neg hs, if_neg hs⟩)
  | read sel idx => rw [exec_read, exec_read]; exact readRow_alone (selectRow_format sel idx) h
  | _ => first
    | exact readRow_alone rfl h
    | simp [Instr.format] at hf

/-- A command read at the port is followed by what is left of the stream. -/
theorem decodeCommand_suffix {bs rest : Bytes} {i : Instr} (h : decodeCommand bs = .command i rest) :
    ∃ taken, bs = taken ++ rest := by
  cases bs with
  | nil => cases h
  | cons op bs =>
    have key : ∀ j r, decodeOperands op bs = some (j, r) → ∃ taken, bs = taken ++ r := by
      intro j r hd
      have t8 {a : Bytes} {b r} (h : take8 a = some (b, r)) : ∃ p, a = p ++ r := by
        cases a with
        | nil => cases h
        | cons x a => cases h; exact ⟨[_], rfl⟩
      have t16 {a : Bytes} {b r} (h : take16 a = some (b, r)) : ∃ p, a = p ++ r := by
        match a, h with
        | x :: y :: a, h => cases h; exact ⟨[_, _], rfl⟩
      have t32 {a : Bytes} {b r} (h : take32 a = some (b, r)) : ∃ p, a = p ++ r := by
        match a, h with
        | x :: y :: z :: u :: a, h => cases h; exact ⟨[_, _, _, _], rfl⟩
      have tb {k : Nat} {a : Bytes} {b r} (h : takeBytes k a = some (b, r)) : ∃ p, a = p ++ r := by
        unfold takeBytes at h
        split at h
        · cases h
        · cases h; exact ⟨_, (List.take_append_drop k a).symm⟩
      have join {a b c : Bytes} (h1 : ∃ p, a = p ++ b) (h2 : ∃ p, b = p ++ c) : ∃ p, a = p ++ c := by
        obtain ⟨p, rfl⟩ := h1; obtain ⟨q, rfl⟩ := h2; exact ⟨p ++ q, (List.append_assoc p q c).symm⟩
      unfold decodeOperands at hd
      repeat' split at hd
      all_goals first
        | (cases hd; done)
        | (cases hd; exact ⟨[], rfl⟩)
        | (cases hd; exact t8 ‹_›)
        | (cases hd; exact t16 ‹_›)
        | (cases hd; exact join (t32 ‹_›) (tb ‹_›))
        | (cases hd; exact join (t8 ‹_›) (tb ‹_›))
        | (cases hd; exact join (t8 ‹_›) (t32 ‹_›))
        | (cases hd; exact join (t32 ‹_›) (join (t32 ‹_›) (tb ‹_›)))
    simp only [decodeCommand] at h
    rcases hd : decodeOperands op bs with _ | ⟨j, r⟩
    · rw [hd] at h; cases h
    · rw [hd] at h; cases h
      obtain ⟨p, rfl⟩ := key _ _ hd
      exact ⟨op :: p, rfl⟩

end Sys2Proof.Machine
end

