-- ==== Sys2Proof/Machine/Assembler.lean ====
section
/-! DEFINITION. The assembly notation of command programs (spec 30_encoding.md R89): one line is one command. -/

namespace Sys2Proof.Assembler

/-- The parts of `cs` between the occurrences of `sep`. -/
def splitOn (sep : Char) : List Char → List (List Char)
  | [] => [[]]
  | c :: cs =>
    if c = sep then [] :: splitOn sep cs
    else
      match splitOn sep cs with
      | [] => [[c]]
      | part :: parts => (c :: part) :: parts

/-- `cs` without the blanks at its two ends. -/
def trim (cs : List Char) : List Char := ((cs.dropWhile (· = ' ')).reverse.dropWhile (· = ' ')).reverse

/-- A decimal or hexadecimal digit. -/
def digit (c : Char) : Option Nat :=
  if '0' ≤ c ∧ c ≤ '9' then some (c.toNat - '0'.toNat)
  else if 'a' ≤ c ∧ c ≤ 'f' then some (c.toNat - 'a'.toNat + 10)
  else if 'A' ≤ c ∧ c ≤ 'F' then some (c.toNat - 'A'.toNat + 10)
  else none

/-- The value of a run of digits below `base`, after those already read. -/
def digits (base : Nat) : Nat → List Char → Option Nat
  | acc, [] => some acc
  | acc, c :: cs =>
    match digit c with
    | some d => if d < base then digits base (acc * base + d) cs else none
    | none => none

/-- "An integer is written in decimal or as `0x` hex." -/
def integer : List Char → Option Nat
  | [] => none
  | '0' :: 'x' :: c :: cs => digits 16 0 (c :: cs)
  | cs => digits 10 0 cs

/-- An integer that fits an operand field of `n` bits. -/
def field (n : Nat) (cs : List Char) : Option (BitVec n) :=
  match integer cs with
  | some v => if v < 2 ^ n then some (BitVec.ofNat n v) else none
  | none => none

/-- A hex byte pair. -/
def hexByte : List Char → Option Byte
  | [a, b] =>
    match digits 16 0 [a, b] with
    | some v => some (BitVec.ofNat 8 v)
    | none => none
  | _ => none

/-- The bytes of a list of hex pairs. -/
def hexBytes : List (List Char) → Option Bytes
  | [] => some []
  | p :: ps =>
    match hexByte p, hexBytes ps with
    | some b, some bs => some (b :: bs)
    | _, _ => none

/-- "A byte sequence is written as hex byte pairs in brackets"; its length is implied. -/
def byteSeq : List Char → Option Bytes
  | '[' :: cs =>
    match cs.reverse with
    | ']' :: inner => hexBytes ((splitOn ' ' inner.reverse).filter (· ≠ []))
    | _ => none
  | _ => none

/-- The selectors of READ by name (R88). -/
def selectorNames : List (List Char × Byte) :=
  [("VER".toList, 0x00), ("TYPE".toList, 0x01), ("TKL".toList, 0x02), ("CODE".toList, 0x03), ("MID".toList, 0x04),
   ("TOKEN".toList, 0x05), ("OPT_COUNT".toList, 0x06), ("OPT_NUM".toList, 0x07), ("OPT_VAL".toList, 0x08),
   ("PAYLOAD".toList, 0x09), ("STATUS".toList, 0x0A), ("OUT_LEN".toList, 0x0B), ("OUT".toList, 0x0C)]

/-- A READ: "The index is written only for OPT_NUM and OPT_VAL, and it encodes as 0 otherwise." -/
def readLine : List (List Char) → Option Instr
  | [name] =>
    match selectorNames.lookup name with
    | some sel => if sel = 0x07 ∨ sel = 0x08 then none else some (.read sel 0)
    | none => none
  | [name, idx] =>
    match selectorNames.lookup name, field 32 idx with
    | some sel, some i => if sel = 0x07 ∨ sel = 0x08 then some (.read sel i) else none
    | _, _ => none
  | _ => none

/-- The command of a mnemonic of R85 and its operands. -/
def command (mnemonic : List Char) (ops : List (List Char)) : Option Instr :=
  if mnemonic = "READ".toList then readLine ops
  else
    match ops with
    | [] =>
      if mnemonic = "ENCODE".toList then some .encode
      else if mnemonic = "CLEAR".toList then some .clear
      else none
    | [a] =>
      if mnemonic = "DECODE".toList then (byteSeq a).map .decode
      else if mnemonic = "SET_TYPE".toList then (field 8 a).map .setType
      else if mnemonic = "SET_CODE".toList then (field 8 a).map .setCode
      else if mnemonic = "SET_MID".toList then (field 16 a).map .setMid
      else if mnemonic = "SET_TOKEN".toList then (byteSeq a).map .setToken
      else if mnemonic = "SET_PAYLOAD".toList then (byteSeq a).map .setPayload
      else none
    | [a, b] =>
      if mnemonic = "ADD_OPTION".toList then
        match field 32 a, byteSeq b with
        | some num, some val => some (.addOption num val)
        | _, _ => none
      else none
    | _ => none

/-- The command a line stands for: the mnemonic, then its operands separated by commas; text after `;` is a comment.
None for a line that is no command, or whose byte sequence is too long for its length field. -/
def assembleLine (line : String) : Option Instr :=
  let cs := trim (line.toList.takeWhile (· ≠ ';'))
  let mnemonic := cs.takeWhile (· ≠ ' ')
  let operands := trim (cs.dropWhile (· ≠ ' '))
  let ops := if operands = [] then [] else (splitOn ',' operands).map trim
  match command mnemonic ops with
  | some i => if i.wellFormed then some i else none
  | none => none

/-- The bytes of a program, one command a line. -/
def assemble : List String → Option Bytes
  | [] => some []
  | l :: ls =>
    match assembleLine l, assemble ls with
    | some i, some bs => some (encode i ++ bs)
    | _, _ => none

end Sys2Proof.Assembler
end

