-- ==== Sys2Proof/Tests/Slice0.lean ====
section
/-! SUPPORT. The model's own tests: ill-formed terms that WellFormed refuses, words written from the spec's tables, vectors
of spec/95_test_vectors.md one step each, and, for every statement with hypotheses, a state and operands that meet them. -/

namespace Sys2Proof.Tests

open Sys2Proof Sys2Proof.Machine

/-! ## Helpers -/

/-- A step that answers a next state with property `p`. -/
def nextIs (o : Result) (p : State → Bool) : Bool :=
  match o with
  | .next t => p t
  | _ => false

/-- The default block with the message `m`. -/
def withMsg (m : Message) : State := { State.reset with mrf := m }

/-- The default block with only these options. -/
def withOpts (opts : List Opt) : State := withMsg { Message.default with opts }

/-- The default block with these capacities. -/
def withCfg (msgMax optMax storeMax : Option Nat) : State :=
  State.resetWith { msgMax, optMax, storeMax }

/-- The bytes after the header `40 00 00 00`, as a DECODE in progress at its first descriptor. -/
def atBody (num : BitVec 32) (body : Bytes) : DecodeWork :=
  { inBuf := [0x40, 0, 0, 0] ++ body, pos := 4, stage := .options, num, msg := Message.default }

/-- The default block in mid-DECODE. -/
def busy (w : DecodeWork) : State := { State.reset with work := .decoding w }

/-- DECODE of these bytes in the default block gives this message and STATUS 0x0001. -/
def decodesTo (b : Bytes) (m : Message) : Bool :=
  nextIs (exec (.decode b) State.reset) fun t => t.mrf = m ∧ t.status = 0x0001

/-- DECODE of these bytes in the default block leaves the message alone and gives this STATUS. -/
def decodeFails (b : Bytes) (status : BitVec 16) : Bool :=
  nextIs (exec (.decode b) State.reset) fun t => t.mrf = Message.default ∧ t.status = status

/-- ENCODE of this message in the default block writes these bytes to OUT. -/
def encodesTo (m : Message) (out : Bytes) : Bool :=
  nextIs (exec .encode (withMsg m)) fun t => t.out = out ∧ t.status = 0x0001 ∧ t.mrf = m

/-! ## WellFormed refuses (30 R83, R86, R87, R88) -/

theorem test_wf_decode_length : (Instr.decode (List.replicate (2 ^ 32) 0)).wellFormed = false := by
  simp only [Instr.wellFormed, List.length_replicate]; decide
theorem test_wf_setToken_length : (Instr.setToken (List.replicate 256 0)).wellFormed = false := by
  simp only [Instr.wellFormed, List.length_replicate]; decide
theorem test_wf_addOption_length : (Instr.addOption 0 (List.replicate (2 ^ 32) 0)).wellFormed = false := by
  simp only [Instr.wellFormed, List.length_replicate]; decide
theorem test_wf_setPayload_length : (Instr.setPayload (List.replicate (2 ^ 32) 0)).wellFormed = false := by
  simp only [Instr.wellFormed, List.length_replicate]; decide
theorem test_wf_reservedOpcode_command : (Instr.reservedOpcode 0x01).wellFormed = false := by decide
theorem test_wf_readReserved_named : (Instr.readReserved 0x0C 0).wellFormed = false := by decide
theorem test_wf_optLL_delta : (Instr.optLL 13 0).wellFormed = false := by decide
theorem test_wf_optLL_length : (Instr.optLL 0 13).wellFormed = false := by decide
theorem test_wf_optLB_delta : (Instr.optLB 13).wellFormed = false := by decide
theorem test_wf_optLW_delta : (Instr.optLW 13).wellFormed = false := by decide
theorem test_wf_optBL_length : (Instr.optBL 13).wellFormed = false := by decide
theorem test_wf_optWL_length : (Instr.optWL 13).wellFormed = false := by decide
theorem test_wf_optRD_length : (Instr.optRD 15).wellFormed = false := by decide
theorem test_wf_optRL_delta : (Instr.optRL 15).wellFormed = false := by decide

/-! ## Words written from the tables, one for each constructor -/

/-- R85, R86, R87. -/
theorem test_words_commands :
    decodeCommand [0x01, 0, 0, 0, 2, 0xAA, 0xBB, 0x02] = .command (.decode [0xAA, 0xBB]) [0x02] ∧
    decodeCommand [0x02, 0x03] = .command .encode [0x03] ∧
    decodeCommand [0x03] = .command .clear [] ∧
    decodeCommand [0x10, 0x03] = .command (.setType 3) [] ∧
    decodeCommand [0x11, 0x45] = .command (.setCode 0x45) [] ∧
    decodeCommand [0x12, 0x12, 0x34] = .command (.setMid 0x1234) [] ∧
    decodeCommand [0x13, 0x02, 0xCA, 0xFE, 0x03] = .command (.setToken [0xCA, 0xFE]) [0x03] ∧
    decodeCommand [0x14, 0x00, 0x01, 0x02, 0x1D, 0, 0, 0, 1, 0xFF] = .command (.addOption 66077 [0xFF]) [] ∧
    decodeCommand [0x15, 0, 0, 0, 2, 0x42, 0x43] = .command (.setPayload [0x42, 0x43]) [] ∧
    decodeCommand [0x20, 0x0B, 0x01, 0x02, 0x03, 0x04] = .command (.read 0x0B 0x01020304) [] ∧
    decodeCommand [0x04, 0x02] = .command (.reservedOpcode 0x04) [0x02] := by decide

/-- R88. -/
theorem test_words_selectors_low :
    decodeReadSel [0x20, 0x00, 0, 0, 0, 0] = some (.readVer 0, []) ∧
    decodeReadSel [0x20, 0x01, 0, 0, 0, 0] = some (.readType 0, []) ∧
    decodeReadSel [0x20, 0x02, 0, 0, 0, 0] = some (.readTkl 0, []) ∧
    decodeReadSel [0x20, 0x03, 0, 0, 0, 0] = some (.readCode 0, []) ∧
    decodeReadSel [0x20, 0x04, 0, 0, 0, 0] = some (.readMid 0, []) ∧
    decodeReadSel [0x20, 0x05, 0, 0, 0, 0] = some (.readToken 0, []) ∧
    decodeReadSel [0x20, 0x06, 0, 0, 0, 0] = some (.readOptCount 0, []) := by decide

/-- R88, R173. -/
theorem test_words_selectors_high :
    decodeReadSel [0x20, 0x07, 0, 0, 0, 2] = some (.readOptNum 2, []) ∧
    decodeReadSel [0x20, 0x08, 0, 0, 1, 0] = some (.readOptVal 256, []) ∧
    decodeReadSel [0x20, 0x09, 0, 0, 0, 0] = some (.readPayload 0, []) ∧
    decodeReadSel [0x20, 0x0A, 0, 0, 0, 0] = some (.readStatus 0, []) ∧
    decodeReadSel [0x20, 0x0B, 0, 0, 0, 0] = some (.readOutLen 0, []) ∧
    decodeReadSel [0x20, 0x0C, 0, 0, 0, 0] = some (.readOut 0, []) ∧
    decodeReadSel [0x20, 0x0D, 0, 0, 0, 0] = some (.readReserved 0x0D 0, []) := by decide

/-- R71, R72: 0x52 is `01 01 0010`. -/
theorem test_words_header :
    decodeHeader [0x52, 0x45, 0x12, 0x34, 0xCA] = some (.hdr 1 1 2 0x45 0x1234, [0xCA]) ∧
    decodeHeader [0xC9, 0xFF, 0x01, 0x00] = some (.hdr 3 0 9 0xFF 256, []) ∧
    decodeHeader [0x40, 0x00, 0x00] = none := by decide

/-- R83. -/
theorem test_words_descriptors :
    decodeDesc 0xFF = .sentinel ∧ decodeDesc 0x3C = .optLL 3 12 ∧ decodeDesc 0xCD = .optLB 12 ∧
    decodeDesc 0x1E = .optLW 1 ∧ decodeDesc 0xD3 = .optBL 3 ∧ decodeDesc 0xDD = .optBB ∧ decodeDesc 0xDE = .optBW ∧
    decodeDesc 0xE3 = .optWL 3 ∧ decodeDesc 0xED = .optWB ∧ decodeDesc 0xEE = .optWW ∧
    decodeDesc 0xFE = .optRD 14 ∧ decodeDesc 0xDF = .optRL 13 := by decide

/-- The numbering of spec/opcode_table.json: the first byte is the low one. -/
theorem test_table_words :
    decodeTableWord 8 0x02 = some .encode ∧ decodeTableWord 40 0x0200000001 = some (.decode [0, 0]) ∧
    decodeTableWord 16 0x0B20 = some (.readOutLen 0) ∧ decodeTableWord 32 0x00000040 = some (.hdr 1 0 0 0 0) ∧
    decodeTableWord 8 0xED = some .optWB ∧ decodeTableWord 24 0x000112 = some (.setMid 256) := by decide

/-- A placed word is what the next step runs. -/
theorem test_withFetchWord_command :
    nextIs (step (State.reset.withFetchWord 16 0x0310)) (fun t => t.mrf.type = 3 ∧ t.input = []) = true := by decide
theorem test_withFetchWord_optBB :
    nextIs (step (State.reset.withFetchWord 8 0xDD)) (fun t => t.work ≠ .idle ∧ t.status = 0) = true := by decide
theorem test_withFetchWord_optRL :
    nextIs (step (State.reset.withFetchWord 8 0x0F)) (fun t => t.status = 0x0503) = true := by decide

/-! ## Encoders (41 R133 to R138), reads and writes -/

/-- The boundaries R133 lists, and its example. -/
theorem test_extEncode :
    extEncode 12 = .ok (12, []) ∧ extEncode 13 = .ok (13, [0x00]) ∧ extEncode 268 = .ok (13, [0xFF]) ∧
    extEncode 269 = .ok (14, [0x00, 0x00]) ∧ extEncode 300 = .ok (14, [0x00, 0x1F]) ∧
    extEncode 65804 = .ok (14, [0xFF, 0xFF]) ∧ extEncode 65805 = .error .valueTooLarge := by decide

/-- The examples of R123. -/
theorem test_resolveW :
    resolveW [0x00, 0x01] 0 = .ok (270, 2) ∧ resolveW [0x01, 0x00] 0 = .ok (525, 2) ∧
    resolveW [0xFF, 0xFF] 0 = .ok (65804, 2) := by decide

/-- R104's example. -/
theorem test_hdrPack :
    hdrPack { Message.default with type := 2, code := 2, mid := 256 } [0, 0, 0, 0] = ([0x60, 0x02, 0x01, 0x00], 4) := by
  decide

/-! ## DECODE (95, W3 to W7, V-HDR, V-OPTD) -/

theorem test_decode_W3 : decodesTo [0x58, 0, 0, 0, 1, 2, 3, 4, 5, 6, 7, 8]
    { Message.default with type := 1, token := [1, 2, 3, 4, 5, 6, 7, 8] } = true := by decide
theorem test_decode_example : decodesTo [0x52, 0x45, 0x12, 0x34, 0xCA, 0xFE, 0xD1, 0x05, 0xAA, 0x22, 0xBB, 0xCC, 0xFF]
    { type := 1, code := 0x45, mid := 0x1234, token := [0xCA, 0xFE], opts := [⟨18, [0xAA]⟩, ⟨20, [0xBB, 0xCC]⟩],
      payload := [] } = true := by decide
theorem test_hdr_order : decodeFails [0xC9, 0, 0, 0] 0x0203 = true ∧ decodeFails [] 0x0103 = true ∧
    decodeFails [0x49, 0, 0, 0, 0, 0, 0, 0, 0, 0, 0, 0, 0] 0x0303 = true ∧
    decodeFails [0x48, 0, 0, 0, 0x11] 0x0403 = true := by decide
theorem test_sentinel_payload_ff : decodesTo [0x40, 0, 0, 0, 0x11, 0xAA, 0xFF, 0xFF]
    { Message.default with opts := [⟨1, [0xAA]⟩], payload := [0xFF] } = true := by decide
theorem test_optLL_ff_data : decodesTo [0x40, 0, 0, 0, 0x11, 0xFF, 0x11, 0xFF]
    { Message.default with opts := [⟨1, [0xFF]⟩, ⟨2, [0xFF]⟩] } = true := by decide
theorem test_optLB_missing : decodeFails [0x40, 0, 0, 0, 0x0D] 0x0603 = true := by decide
theorem test_optLW_short : decodeFails [0x40, 0, 0, 0, 0x0E, 0, 0] 0x0603 = true := by decide
theorem test_optBL : decodesTo [0x40, 0, 0, 0, 0xD3, 0xFF, 0xFF, 0xFF, 0xFF]
    { Message.default with opts := [⟨268, [0xFF, 0xFF, 0xFF]⟩] } = true := by decide
theorem test_optBB_no_value : decodeFails [0x40, 0, 0, 0, 0xDD, 0, 0] 0x0603 = true := by decide
theorem test_optWL_max : decodesTo [0x40, 0, 0, 0, 0xE0, 0xFF, 0xFF]
    { Message.default with opts := [⟨65804, []⟩] } = true := by decide
theorem test_optRD : decodeFails [0x40, 0, 0, 0, 0x11, 0xAA, 0xF1] 0x0503 = true := by decide
theorem test_optRL : decodeFails [0x40, 0, 0, 0, 0x1F, 0xAA] 0x0503 = true ∧
    decodeFails [0x40, 0, 0, 0, 0xDF] 0x0603 = true ∧ decodeFails [0x40, 0, 0, 0, 0xEF] 0x0603 = true := by decide
/-- V-NUM's order, near the top of the number range: the overflow is seen only once the value is there. -/
theorem test_number_overflow :
    nextIs (exec (.optWL 0) (busy (atBody 0xFFFFE87C [0xE0, 0xFF, 0xFF]))) (fun t => t.status = 0x0A03) = true ∧
    nextIs (exec (.optLL 1 1) (busy (atBody 0xFFFFFFFE [0x11, 0xAA])))
      (fun t => t.work = .decoding { atBody 0xFFFFFFFF [0x11, 0xAA] with
        pos := 6, msg := { Message.default with opts := [⟨0xFFFFFFFF, [0xAA]⟩] } }) = true := by decide

/-! ## ENCODE (95, W8, V-ENC) -/

theorem test_encode_W8 : encodesTo
    { Message.default with
      type := 2, code := 2, mid := 256, payload := [0x42, 0x42, 0x42, 0x42]
      opts := [⟨1, [0xFF]⟩, ⟨2, [0xFF]⟩, ⟨5, [0xFF, 0xFF, 0xFF]⟩, ⟨273, [0xFF, 0xFF, 0xFF]⟩,
        ⟨66077, [0xFF, 0xFF, 0xFF]⟩] }
    [0x60, 0x02, 0x01, 0x00, 0x11, 0xFF, 0x11, 0xFF, 0x33, 0xFF, 0xFF, 0xFF, 0xD3, 0xFF, 0xFF, 0xFF, 0xFF,
      0xE3, 0xFF, 0xFF, 0xFF, 0xFF, 0xFF, 0xFF, 0x42, 0x42, 0x42, 0x42] = true := by decide
theorem test_encode_errors :
    nextIs (exec .encode (withOpts [⟨10, []⟩, ⟨100000, []⟩])) (fun t => t.status = 0x0903 ∧ t.out = []) = true ∧
    nextIs (exec .encode { withCfg (some 5) none none with mrf := { Message.default with opts := [⟨1, [0xAA]⟩] } })
      (fun t => t.status = 0x0B03 ∧ t.out = []) = true := by decide

/-! ## The other commands (95, V-CMD) -/

theorem test_setType : nextIs (exec (.setType 3) State.reset) (fun t => t.mrf.type = 3 ∧ t.status = 0x0001) = true ∧
    nextIs (exec (.setType 4) State.reset) (fun t => t.mrf.type = 0 ∧ t.status = 0x0703) = true := by decide
theorem test_setCode_setMid :
    nextIs (exec (.setCode 0xFF) State.reset) (fun t => t.mrf.code = 0xFF ∧ t.status = 0x0001) = true ∧
    nextIs (exec (.setMid 0xFFFF) State.reset) (fun t => t.mrf.mid = 0xFFFF ∧ t.status = 0x0001) = true := by decide
theorem test_setToken :
    nextIs (exec (.setToken [1, 2, 3, 4, 5, 6, 7, 8]) State.reset) (fun t => t.tkl = 8 ∧ t.status = 0x0001) = true ∧
    nextIs (exec (.setToken [1, 2, 3, 4, 5, 6, 7, 8, 9]) State.reset)
      (fun t => t.mrf.token = [] ∧ t.status = 0x0803) = true := by decide
theorem test_addOption_stable :
    nextIs (exec (.addOption 5 [0xCC]) (withOpts [⟨1, [0xBB]⟩, ⟨5, [0xAA]⟩]))
      (fun t => t.mrf.opts = [⟨1, [0xBB]⟩, ⟨5, [0xAA]⟩, ⟨5, [0xCC]⟩]) = true ∧
    nextIs (exec (.addOption 1 [0xAA]) (withCfg none (some 0) none))
      (fun t => t.status = 0x0B03 ∧ t.mrf.opts = []) = true := by decide
theorem test_setPayload_store :
    nextIs (exec (.setPayload [1, 2, 3, 4, 5]) (withCfg (some 4) none (some 4)))
      (fun t => t.status = 0x0B03 ∧ t.mrf.payload = []) = true ∧
    nextIs (exec (.setPayload [1, 2, 3, 4]) (withCfg (some 4) none (some 4)))
      (fun t => t.status = 0x0001 ∧ t.mrf.payload = [1, 2, 3, 4]) = true := by decide
theorem test_clear :
    nextIs (exec .clear { withOpts [⟨1, [0xAA]⟩] with out := [7], status := 0x0703 })
      (fun t => t.mrf = Message.default ∧ t.out = [7] ∧ t.status = 0x0001) = true := by decide
theorem test_reservedOpcode :
    nextIs (exec (.reservedOpcode 0x55) State.reset) (fun t => t.status = 0x0C03 ∧ t.mrf = Message.default) = true := by
  decide

/-- A READ of `sel` and `idx` in `s` responds with these bytes and leaves STATUS alone. -/
def reads (s : State) (sel : Byte) (idx : BitVec 32) (data : Bytes) : Bool :=
  nextIs (exec (.read sel idx) s) fun t => t.responses = [⟨none, data⟩] ∧ t.status = s.status

/-- The block after P2's DECODE, with an OUT of 12 bytes. -/
def afterP2 : State :=
  { State.reset with
    mrf := { type := 1, code := 0x45, mid := 0x1234, token := [0xCA, 0xFE],
             opts := [⟨18, [0xAA]⟩, ⟨20, [0xBB, 0xCC]⟩], payload := [0x42] }
    status := 0x0503, out := [0x40, 0, 0, 0] }

theorem test_reads :
    reads afterP2 0x00 0 [0x01] = true ∧ reads afterP2 0x01 0 [0x01] = true ∧ reads afterP2 0x02 0 [0x02] = true ∧
    reads afterP2 0x03 0 [0x45] = true ∧ reads afterP2 0x04 0 [0x12, 0x34] = true ∧
    reads afterP2 0x05 0 [0xCA, 0xFE] = true ∧ reads afterP2 0x06 0 [0, 0, 0, 2] = true ∧
    reads afterP2 0x07 1 [0, 0, 0, 0x14] = true ∧ reads afterP2 0x08 1 [0xBB, 0xCC] = true ∧
    reads afterP2 0x09 0 [0x42] = true ∧ reads afterP2 0x0A 0 [0x05, 0x03] = true ∧
    reads afterP2 0x0B 0 [0, 0, 0, 4] = true ∧ reads afterP2 0x0C 0 [0x40, 0, 0, 0] = true := by decide
theorem test_read_illegal :
    nextIs (exec (.read 0x07 0) State.reset)
      (fun t => t.responses = [⟨some .illegalCommand, []⟩] ∧ t.status = 0x0000) = true ∧
    nextIs (exec (.read 0x0D 0) State.reset)
      (fun t => t.responses = [⟨some .illegalCommand, []⟩] ∧ t.status = 0x0000) = true := by decide

/-- R32: the fields of STATUS 0x0703. -/
theorem test_status_fields :
    State.done { State.reset with status := 0x0703 } = 1 ∧ State.err { State.reset with status := 0x0703 } = 1 ∧
    State.errcode { State.reset with status := 0x0703 } = 7 := by decide

/-- R201: the two classes of decode errors. -/
theorem test_error_classes :
    Err.invalidTokenLength.class? = some .malformedHeader ∧ Err.truncatedOption.class? = some .malformedOption ∧
    Err.truncatedToken.class? = none := by decide

/-- R24. -/
theorem test_type_names : msgType 1 = .nonConfirmable ∧ msgType 3 = .reset := by decide

/-! ## The assembly notation (30 R89, its own examples) -/

theorem test_assembler :
    Assembler.assemble ["SET_MID 256"] = some [0x12, 0x01, 0x00] ∧
    Assembler.assemble ["ADD_OPTION 5, [ff ff ff] ; comment"] =
      some [0x14, 0, 0, 0, 5, 0, 0, 0, 3, 0xFF, 0xFF, 0xFF] ∧
    Assembler.assemble ["READ OPT_NUM, 2", "READ OUT_LEN"] =
      some [0x20, 0x07, 0, 0, 0, 2, 0x20, 0x0B, 0, 0, 0, 0] := by decide

/-! ## Witnesses: for every statement with hypotheses, a state and operands that meet them -/

/-- A message with every field in use. -/
def fullMsg : Message :=
  { type := 2, code := 0x45, mid := 256, token := [1, 2, 3, 4, 5, 6, 7, 8], opts := [⟨1, [0xFF]⟩, ⟨12, []⟩],
    payload := [0x42] }

/-- Its wire form: header, token, two entries, sentinel and payload. -/
def fullBytes : Bytes :=
  [0x68, 0x45, 0x01, 0x00, 1, 2, 3, 4, 5, 6, 7, 8, 0x11, 0xFF, 0xB0, 0xFF, 0x42]

/-- The two entries of `fullMsg`. -/
theorem fullMsg_entries : Entries 0 [0x11, 0xFF, 0xB0] fullMsg.opts :=
  .cons 0 1 1 1 1 [] [] [0xFF] [0xB0] _ (.literal 1 (by decide)) (.literal 1 (by decide)) rfl
    (.cons 1 11 12 11 0 [] [] [] [] _ (.literal 11 (by decide)) (.literal 0 (by decide)) rfl (.nil 12))

theorem fullMsg_form : WireForm fullMsg (0xFF :: fullMsg.payload) fullBytes :=
  ⟨by decide, [0x11, 0xFF, 0xB0], fullMsg_entries, by decide⟩

theorem fullMsg_sorted : NumsSorted fullMsg.opts := by
  simp [NumsSorted, fullMsg]

theorem fullMsg_representable : Representable 0 fullMsg.opts :=
  ⟨by decide, by decide, by decide, by decide, trivial⟩

/-- A block that holds `fullMsg`, its capacities met exactly. -/
def fullState : State :=
  { withCfg (some 17) (some 2) (some 17) with mrf := fullMsg }

theorem fullState_inv : fullState.Inv where
  cfg := by decide
  mrf := ⟨by decide, fullMsg_sorted, by decide, by decide⟩
  status := ⟨by decide, by decide, by decide⟩
  out := by decide
  work := fun w h => by cases h

theorem witness_EncodedInstructionDecodesBack :
    (Instr.setToken (List.replicate 255 0)).wellFormed = true ∧ (Instr.reservedOpcode 0x21).wellFormed = true ∧
    (Instr.readReserved 0x0D 7).wellFormed = true ∧ (Instr.optLL 12 12).wellFormed = true ∧
    (Instr.optRD 14).wellFormed = true ∧ (Instr.decode (List.replicate (2 ^ 32 - 1) 0)).wellFormed = true := by
  refine ⟨?_, by decide, by decide, by decide, by decide, ?_⟩ <;>
    (simp only [Instr.wellFormed, List.length_replicate]; decide)

theorem witness_CommandDecodingLosesNothing :
    decodeCommand [0x13, 0x02, 0xCA, 0xFE, 0x03] = .command (.setToken [0xCA, 0xFE]) [0x03] := by decide

/-- One boundary byte for each of the twelve classes, in the order of R83. -/
theorem witness_DescriptorByteFallsInItsClass :
    (hiNibble 0xFF = 15 ∧ loNibble 0xFF = 15) ∧ ((hiNibble 0xCC).toNat ≤ 12 ∧ (loNibble 0xCC).toNat ≤ 12) ∧
    ((hiNibble 0xCD).toNat ≤ 12 ∧ loNibble 0xCD = 13) ∧ ((hiNibble 0x0E).toNat ≤ 12 ∧ loNibble 0x0E = 14) ∧
    (hiNibble 0xDC = 13 ∧ (loNibble 0xDC).toNat ≤ 12) ∧ (hiNibble 0xDD = 13 ∧ loNibble 0xDD = 13) ∧
    (hiNibble 0xDE = 13 ∧ loNibble 0xDE = 14) ∧ (hiNibble 0xEC = 14 ∧ (loNibble 0xEC).toNat ≤ 12) ∧
    (hiNibble 0xED = 14 ∧ loNibble 0xED = 13) ∧ (hiNibble 0xEE = 14 ∧ loNibble 0xEE = 14) ∧
    (hiNibble 0xFE = 15 ∧ (loNibble 0xFE).toNat ≤ 14) ∧ ((hiNibble 0xEF).toNat ≤ 14 ∧ loNibble 0xEF = 15) := by decide

theorem witness_ExtensionResolvesByItsNibble :
    (12 : BitVec 4).toNat ≤ 12 ∧ ([0x11, 0xFF] : Bytes).drop 1 = [0xFF] ∧ ([0x11] : Bytes).length ≤ 1 ∧
    ([0x11, 0xFF, 0xFE] : Bytes).drop 1 = [0xFF, 0xFE] ∧ ([0x11, 0xFF] : Bytes).length ≤ 1 + 1 ∧
    extResolve 14 [0xFF, 0xFF] 0 = .ok (65804, 2) := by decide

theorem witness_ExtensionEncodingIsUnique : 65804 ≤ 65804 ∧ 65804 < 65805 := by decide

theorem witness_ExtensionSchemeRoundTrips :
    65804 ≤ 65804 ∧ (14 : BitVec 4).toNat ≤ 14 ∧ extResolve 14 [0xFF, 0xFF] 0 = .ok (65804, 2) := by decide

theorem witness_EncoderNeverEmitsNibbleFifteen : extEncode 65804 = .ok (14, [0xFF, 0xFF]) := by decide

theorem witness_HeaderRoundTrips :
    (fullMsg.token.length ≤ 8 ∧ 4 + fullMsg.token.length ≤ (List.replicate 12 (0 : Byte)).length) ∧
    hdrParse fullBytes = .ok ⟨2, 8, 0x45, 256⟩ ∧ tokenExtract fullBytes 8 = .ok (fullMsg.token, 12) := by decide

theorem witness_StepRunsTheCommandAtThePort :
    State.reset.work = .idle ∧ decodeCommand [0x10, 0x03, 0x02] = .command (.setType 3) [0x02] := by decide

theorem witness_StepRunsTheWireUnitAtTheCursor :
    ((DecodeWork.start fullBytes).stage = .header ∧
      decodeAs .wireHeader fullBytes = some (.hdr 1 2 8 0x45 256, fullBytes.drop 4)) ∧
    ((atBody 0 [0x11, 0xAA]).stage = .options ∧ (atBody 0 [0x11, 0xAA]).inBuf[4]? = some 0x11) := by decide

theorem witness_DecodeInProgressEndsWithTheBuffer :
    ((DecodeWork.start [0x40, 0, 0]).stage = .header ∧ (DecodeWork.start [0x40, 0, 0]).inBuf.length < 4) ∧
    ((atBody 0 []).stage = .options ∧ (atBody 0 []).pos = (atBody 0 []).inBuf.length) := by decide

theorem witness_TruncatedCommandIsRefused :
    State.reset.work = .idle ∧ (Instr.addOption 5 [0xFF]).wellFormed = true ∧
    9 < (encode (Instr.addOption 5 [0xFF])).length ∧ 1 < (encode (.setType 0)).length ∧ State.reset.input = [] := by
  decide

theorem witness_NoMoveForAnOverlappingCommand :
    Instr.encode.format = .cmd ∧ (Instr.readVer 0).format = .readSel ∧
    (busy (atBody 0 [])).work = .decoding (atBody 0 []) ∧ (Instr.hdr 1 0 0 0 0).format = .wireHeader ∧
    Instr.sentinel.format = .wireDesc ∧ State.reset.work = .idle := by decide

theorem witness_SetTypeStoresOrRejects :
    State.reset.work = .idle ∧ (3 : Byte).toNat ≤ 3 ∧ 3 < (4 : Byte).toNat := by decide

/-- For SetCodeAndSetMidStoreTheirOperand, ClearSetsTheDefaultMessage, ClearDiffersFromReset and
DecodeEndsInAMessageOrADecodeError, whose one hypothesis is an idle block. -/
theorem witness_idle_block : fullState.work = .idle ∧ fullState.status = 0x0000 ∧ fullState.mrf ≠ Message.default := by
  decide

theorem witness_SetTokenStoresOrRejects :
    State.reset.work = .idle ∧ (List.replicate 255 (0 : Byte)).length < 256 ∧ (List.replicate 8 (0 : Byte)).length ≤ 8 ∧
    8 < (List.replicate 9 (0 : Byte)).length := by simp only [List.length_replicate]; decide

theorem witness_AddOptionInsertsOrRejects :
    fullState.work = .idle ∧ fullState.cfg.optMax = some fullState.mrf.opts.length ∧
    (∃ bound, (withCfg (some 4) none (some 4)).cfg.storeMax = some bound ∧
      bound < ((withCfg (some 4) none (some 4)).mrf.opts.map (fun r => r.val.length)).sum + 0 + 5) ∧
    ((withCfg (some 4) (some 1) (some 4)).cfg.optMax ≠ some (withCfg (some 4) (some 1) (some 4)).mrf.opts.length ∧
      ∀ bound, (withCfg (some 4) (some 1) (some 4)).cfg.storeMax = some bound → 4 ≤ bound) :=
  ⟨rfl, rfl, ⟨4, rfl, by decide⟩, by decide, fun b h => by cases h; decide⟩

theorem witness_AddOptionIsSortedAndStable :
    NumsSorted (withOpts [⟨5, [0xAA]⟩]).mrf.opts ∧
    ∃ t, exec (.addOption 5 [0xCC]) (withOpts [⟨5, [0xAA]⟩]) = .next t ∧ t.status = 0x0001 :=
  ⟨by simp [NumsSorted, withOpts, withMsg], _, rfl, by decide⟩

theorem witness_SetPayloadStoresOrRejects :
    (withCfg (some 4) none (some 4)).work = .idle ∧
    (∃ bound, (withCfg (some 4) none (some 4)).cfg.storeMax = some bound ∧ bound < 0 + 5) ∧
    (∀ bound, (withCfg (some 4) none (some 4)).cfg.storeMax = some bound → 0 + 4 ≤ bound) :=
  ⟨rfl, ⟨4, rfl, by decide⟩, fun b h => by cases h; decide⟩

theorem witness_ReservedOpcodeReportsIllegalCommand :
    State.reset.work = .idle ∧ (Instr.reservedOpcode 0x00).wellFormed = true ∧
    (Instr.reservedOpcode 0xFF).wellFormed = true := by decide

theorem witness_DecodeAcceptsExactlyTheWireFormat :
    fullState.work = .idle ∧ fits fullState.cfg.msgMax fullBytes.length = true ∧ MessageForm fullMsg fullBytes ∧
    fits fullState.cfg.optMax fullMsg.opts.length = true :=
  ⟨rfl, by decide, .inr fullMsg_form, by decide⟩

/-- The five outcomes of the header checks, each at a boundary. -/
theorem witness_DecodeChecksTheHeaderInOrder :
    fits (some 4) ([0x40, 0, 0, 0, 0] : Bytes).length = false ∧
    (fits (some 4) ([0x40, 0, 0] : Bytes).length = true ∧ ([0x40, 0, 0] : Bytes).length < 4) ∧
    (0xC9 : Byte).toNat / 64 ≠ 1 ∧ ((0x49 : Byte).toNat / 64 = 1 ∧ 8 < (0x49 : Byte).toNat % 16) ∧
    ((0x48 : Byte).toNat / 64 = 1 ∧ (0x48 : Byte).toNat % 16 ≤ 8 ∧
      (List.replicate 7 (0 : Byte)).length < (0x48 : Byte).toNat % 16) := by decide

theorem witness_DecodeOfHeaderAndTokenAlone :
    (withCfg (some 12) none none).work = .idle ∧ (0x58 : Byte).toNat / 64 = 1 ∧
    fullMsg.token.length = (0x58 : Byte).toNat % 16 ∧ fullMsg.token.length ≤ 8 ∧
    fits (withCfg (some 12) none none).cfg.msgMax (4 + fullMsg.token.length) = true := by decide

/-- The three clauses of R124: 0xF0 and 0xFE, 0x0F and 0xEF with its two bytes, 0xDF at the end. -/
theorem witness_DecodeRejectsAReservedNibble :
    State.reset.work = .idle ∧ fullMsg.token.length ≤ 8 ∧ Entries 0 [0x11, 0xFF, 0xB0] fullMsg.opts ∧
    fits State.reset.cfg.optMax fullMsg.opts.length = true ∧
    fits State.reset.cfg.msgMax (headerBytes fullMsg ++ fullMsg.token ++ [0x11, 0xFF, 0xB0] ++ [0xDF]).length = true ∧
    ((0xF0 : Byte).toNat / 16 = 15 ∧ (0xF0 : Byte).toNat % 16 ≠ 15) ∧
    ((0xFE : Byte).toNat / 16 = 15 ∧ (0xFE : Byte).toNat % 16 ≠ 15) ∧
    (ExtForm 0 [] 0 ∧ (0x0F : Byte).toNat = (0 : BitVec 4).toNat * 16 + 15) ∧
    (ExtForm 14 [0, 0] (269 + ((0 : Byte).toNat * 256 + (0 : Byte).toNat)) ∧
      (0xEF : Byte).toNat = (14 : BitVec 4).toNat * 16 + 15) :=
  ⟨rfl, by decide, fullMsg_entries, by decide, by decide, by decide, by decide,
    ⟨.literal 0 (by decide), by decide⟩, .word 0 0, by decide⟩

theorem witness_DecodedOptionsAreSorted :
    ∃ t, exec (.decode [0x40, 0, 0, 0, 0x11, 0xAA]) State.reset = .next t ∧ t.status = 0x0001 ∧
      t.mrf.opts = [⟨1, [0xAA]⟩] :=
  ⟨_, rfl, by decide, by decide⟩

theorem witness_EncodeEmitsTheWireFormat :
    fullState.work = .idle ∧ fullState.mrf.token.length ≤ 8 ∧ NumsSorted fullState.mrf.opts ∧
    Representable 0 fullState.mrf.opts ∧ fits fullState.cfg.msgMax (wireSize fullState.mrf) = true :=
  ⟨rfl, by decide, fullMsg_sorted, fullMsg_representable, by decide⟩

theorem witness_EncodeChecksInOrder :
    (NumsSorted (withOpts [⟨65805, []⟩]).mrf.opts ∧ ¬ Representable 0 (withOpts [⟨65805, []⟩]).mrf.opts) ∧
    (NumsSorted fullMsg.opts ∧ Representable 0 fullMsg.opts ∧ fits (some 16) (wireSize fullMsg) = false) :=
  ⟨⟨by simp [NumsSorted, withOpts, withMsg], fun h => absurd h.1 (by decide)⟩, fullMsg_sorted, fullMsg_representable,
    by decide⟩

theorem witness_MinimalEncodingRoundTrips :
    ∃ t, exec (.decode [0x40, 0, 0, 0, 0x11, 0xAA]) State.reset = .next t ∧ t.status = 0x0001 ∧
      ¬ TrailingSentinelForm t.mrf [0x40, 0, 0, 0, 0x11, 0xAA] := by
  refine ⟨_, rfl, by decide, ?_⟩
  rintro ⟨-, -, body, -, hb⟩
  have := congrArg List.getLast? hb
  rw [List.getLast?_append] at this
  simp at this

theorem witness_TrailingSentinelIsDropped :
    ∃ t, exec (.decode [0x40, 0, 0, 0, 0xFF]) State.reset = .next t ∧ t.status = 0x0001 ∧
      TrailingSentinelForm t.mrf [0x40, 0, 0, 0, 0xFF] :=
  ⟨_, rfl, by decide, by decide, by decide, [], .nil 0, by decide⟩

theorem witness_EncodeThenDecodeRestoresTheMessage :
    fullState.Inv ∧ ∃ t, exec .encode fullState = .next t ∧ t.status = 0x0001 ∧ t.out = fullBytes :=
  ⟨fullState_inv, _, rfl, by decide, by decide⟩

theorem witness_ReadRowsReturnTheirField :
    fullState.work = .idle ∧ fullState.mrf.opts.length < 2 ^ 32 ∧ fullState.mrf.opts[(1 : BitVec 32).toNat]? = some ⟨12, []⟩ ∧
    fullState.out.length < 2 ^ 32 := by decide

theorem witness_ReadReturnsItsSelectorRow :
    fullState.work = .idle ∧ 0x0C < (0x0D : Byte).toNat ∧ fullState.mrf.opts.length ≤ (2 : BitVec 32).toNat ∧
    ((0x08 : Byte).toNat ≤ 0x0C ∧ (1 : BitVec 32).toNat < fullState.mrf.opts.length) := by decide

theorem witness_ReadChangesNothingAndRepeats :
    (Instr.readToken 0).format = .readSel ∧ (∃ t, exec (.readToken 0) fullState = .next t) ∧
    ∃ t, exec (.read 0x07 2) fullState = .next t :=
  ⟨rfl, ⟨_, rfl⟩, _, rfl⟩

/-- Three bytes; four bytes with version 3, then token length 9, then 8 with no token byte; the header with its token. -/
theorem witness_HeaderUnitParsesHeaderAndToken :
    (busy (DecodeWork.start [0x40, 0, 0])).work = .decoding (DecodeWork.start [0x40, 0, 0]) ∧
    (DecodeWork.start [0x40, 0, 0]).stage = .header ∧ (DecodeWork.start [0x40, 0, 0]).inBuf.length < 4 ∧
    4 ≤ (DecodeWork.start [0xC9, 0, 0, 0]).inBuf.length ∧ (3 : BitVec 2) ≠ 1 ∧ 8 < (9 : BitVec 4).toNat ∧
    (8 : BitVec 4).toNat ≤ 8 ∧ (DecodeWork.start [0x48, 0, 0, 0]).inBuf.length < 4 + (8 : BitVec 4).toNat ∧
    4 + (8 : BitVec 4).toNat ≤ (DecodeWork.start fullBytes).inBuf.length := by decide

theorem witness_SentinelUnitCommitsThePayload :
    AtDescriptor (busy (atBody 0 [0xFF, 0x42])) (atBody 0 [0xFF, 0x42]) ∧
    (atBody 0 [0xFF, 0x42]).inBuf.drop (atBody 0 [0xFF, 0x42]).pos = [0xFF, 0x42] :=
  ⟨⟨rfl, rfl⟩, rfl⟩

/-- An entry whose descriptor is followed by these bytes, the running number such that the sum is the largest legal one. -/
theorem atEntry_busy (delta : Nat) (num : BitVec 32) (d : Byte) (bytes : Bytes) (h : num.toNat + delta ≤ 0xFFFFFFFF) :
    AtEntry (busy (atBody num (d :: bytes))) (atBody num (d :: bytes)) delta bytes :=
  ⟨⟨rfl, rfl⟩, rfl, h, fun h => by cases h⟩

/-- One entry for each accepted class, in the order of R83. -/
theorem witness_OptionRowsAppendTheirEntry :
    ([] : Bytes).length = (0 : BitVec 4).toNat ∧
    AtEntry (busy (atBody 0xFFFFFFF3 [0xC0])) (atBody 0xFFFFFFF3 [0xC0]) (12 : BitVec 4).toNat ([] ++ []) ∧
    (List.replicate 13 (1 : Byte)).length = 13 + (0 : Byte).toNat ∧
    AtEntry (busy (atBody 0 (0x0D :: 0 :: (List.replicate 13 1 ++ [7]))))
      (atBody 0 (0x0D :: 0 :: (List.replicate 13 1 ++ [7]))) (0 : BitVec 4).toNat (0 :: (List.replicate 13 1 ++ [7])) ∧
    (List.replicate 269 (1 : Byte)).length = 269 + ((0 : Byte).toNat * 256 + (0 : Byte).toNat) ∧
    AtEntry (busy (atBody 0 (0x0E :: 0 :: 0 :: (List.replicate 269 1 ++ []))))
      (atBody 0 (0x0E :: 0 :: 0 :: (List.replicate 269 1 ++ []))) (0 : BitVec 4).toNat
      (0 :: 0 :: (List.replicate 269 1 ++ [])) ∧
    AtEntry (busy (atBody 0xFFFFFEF3 [0xD0, 0xFF])) (atBody 0xFFFFFEF3 [0xD0, 0xFF]) (13 + (0xFF : Byte).toNat)
      (0xFF :: ([] ++ [])) ∧
    AtEntry (busy (atBody 0 (0xDD :: 0 :: 0 :: (List.replicate 13 1 ++ []))))
      (atBody 0 (0xDD :: 0 :: 0 :: (List.replicate 13 1 ++ []))) (13 + (0 : Byte).toNat)
      (0 :: 0 :: (List.replicate 13 1 ++ [])) ∧
    AtEntry (busy (atBody 0 (0xDE :: 0 :: 0 :: 0 :: (List.replicate 269 1 ++ []))))
      (atBody 0 (0xDE :: 0 :: 0 :: 0 :: (List.replicate 269 1 ++ []))) (13 + (0 : Byte).toNat)
      (0 :: 0 :: 0 :: (List.replicate 269 1 ++ [])) ∧
    AtEntry (busy (atBody 0xFFFEFEF3 [0xE0, 0xFF, 0xFF])) (atBody 0xFFFEFEF3 [0xE0, 0xFF, 0xFF])
      (269 + ((0xFF : Byte).toNat * 256 + (0xFF : Byte).toNat)) (0xFF :: 0xFF :: ([] ++ [])) ∧
    AtEntry (busy (atBody 0 (0xED :: 0 :: 0 :: 0 :: (List.replicate 13 1 ++ []))))
      (atBody 0 (0xED :: 0 :: 0 :: 0 :: (List.replicate 13 1 ++ []))) (269 + ((0 : Byte).toNat * 256 + (0 : Byte).toNat))
      (0 :: 0 :: 0 :: (List.replicate 13 1 ++ [])) ∧
    AtEntry (busy (atBody 0 (0xEE :: 0 :: 0 :: 0 :: 0 :: (List.replicate 269 1 ++ []))))
      (atBody 0 (0xEE :: 0 :: 0 :: 0 :: 0 :: (List.replicate 269 1 ++ [])))
      (269 + ((0 : Byte).toNat * 256 + (0 : Byte).toNat)) (0 :: 0 :: 0 :: 0 :: (List.replicate 269 1 ++ [])) :=
  ⟨by decide, atEntry_busy _ _ _ _ (by decide), by rw [List.length_replicate]; decide, atEntry_busy _ _ _ _ (by decide), by rw [List.length_replicate]; decide,
    atEntry_busy _ _ _ _ (by decide), atEntry_busy _ _ _ _ (by decide), atEntry_busy _ _ _ _ (by decide),
    atEntry_busy _ _ _ _ (by decide), atEntry_busy _ _ _ _ (by decide), atEntry_busy _ _ _ _ (by decide),
    atEntry_busy _ _ _ _ (by decide)⟩

theorem witness_ReservedDescriptorRowsRejectTheEntry :
    AtDescriptor (busy (atBody 0 [0xEF, 0, 1])) (atBody 0 [0xEF, 0, 1]) ∧
    ExtForm 14 [0, 1] (269 + ((0 : Byte).toNat * 256 + (1 : Byte).toNat)) ∧
    (atBody 0 [0xEF, 0, 1]).inBuf.drop ((atBody 0 [0xEF, 0, 1]).pos + 1) = [0, 1] ++ [] :=
  ⟨⟨rfl, rfl⟩, .word 0 1, rfl⟩

/-- The clauses of R127 in order: 0xF0; 0xD0 and 0xE0 at the end; 0x0F, 0x0D and 0x0E after their delta; then a value one
byte short, a number one too large, and a full MRF. -/
theorem witness_EntryReportsItsFirstError :
    ¬ ((15 : BitVec 4) = 15 ∧ (0 : BitVec 4) = 15) ∧ AtDescriptor (busy (atBody 0 [0xD0])) (atBody 0 [0xD0]) ∧
    (atBody 0 [0xD0]).inBuf.length < (atBody 0 [0xD0]).pos + 2 ∧
    (atBody 0 [0xE0, 0]).inBuf.length < (atBody 0 [0xE0, 0]).pos + 3 ∧
    (ExtForm 0 [] 0 ∧ (atBody 0 [0x0D]).inBuf.drop ((atBody 0 [0x0D]).pos + 1) = [] ++ [] ∧ ([] : Bytes).length < 1) ∧
    ((atBody 0 [0x0E, 0]).inBuf.drop ((atBody 0 [0x0E, 0]).pos + 1) = [] ++ [0] ∧ ([0] : Bytes).length < 2) ∧
    (ExtForm 2 [] 2 ∧ (atBody 0 [0x02, 0xAA]).inBuf.drop ((atBody 0 [0x02, 0xAA]).pos + 1) = [] ++ ([] ++ [0xAA]) ∧
      ([0xAA] : Bytes).length < 2) ∧
    (ExtForm 1 [] 1 ∧ 0 ≤ ([] : Bytes).length ∧ 0xFFFFFFFF < (atBody 0xFFFFFFFF [0x10]).num.toNat + 1) ∧
    ((atBody 0xFFFFFFFE [0x10]).num.toNat + 1 ≤ 0xFFFFFFFF ∧
      (withCfg none (some 0) none).cfg.optMax = some (atBody 0xFFFFFFFE [0x10]).msg.opts.length) :=
  ⟨by decide, ⟨rfl, rfl⟩, by decide, by decide, ⟨.literal 0 (by decide), rfl, by decide⟩, ⟨rfl, by decide⟩,
    ⟨.literal 2 (by decide), rfl, by decide⟩, ⟨.literal 1 (by decide), by decide, by decide⟩, by decide, rfl⟩

theorem witness_UnitStepsRefineTheAtomicDecode :
    fullState.work = .idle ∧ fits fullState.cfg.msgMax fullBytes.length = true ∧
    fits fullState.cfg.msgMax ([] : Bytes).length = true := by decide

theorem witness_WireUnitsShowNothingUntilTheDecodeEnds :
    (Instr.optLL 1 1).format = .wireDesc ∧ (∃ t, exec (.optLL 1 1) (busy (atBody 0 [0x11, 0xAA])) = .next t) ∧
    ∃ t, exec .sentinel (busy (atBody 0 [0xFF])) = .next t :=
  ⟨rfl, ⟨_, rfl⟩, _, rfl⟩

theorem witness_FirstEncodeAfterReset :
    Config.wf { msgMax := some 4, optMax := some 0, storeMax := some 4 } = true := by decide

theorem witness_EveryCommandCompletes :
    (Instr.reservedOpcode 0x55).format = .cmd ∧ (Instr.readOut 0).format = .readSel ∧ fullState.work = .idle := by decide

theorem witness_StatusRecordsEveryCommandButRead :
    Instr.clear.format = .cmd ∧ (∃ t, exec .clear fullState = .next t) ∧ (∀ sel idx, Instr.clear ≠ .read sel idx) ∧
    ∃ t, exec (.readStatus 0) fullState = .next t :=
  ⟨rfl, ⟨_, rfl⟩, (by intro _ _ h; cases h), _, rfl⟩

theorem witness_FailingCommandsCommitNothing :
    (∃ t, exec (.setType 4) fullState = .next t ∧ t.responses = ⟨some .invalidType, []⟩ :: fullState.responses) ∧
    ∃ t, exec (.readReserved 0xFF 0) fullState = .next t ∧
      t.responses = ⟨some .illegalCommand, []⟩ :: fullState.responses :=
  ⟨⟨_, rfl, by decide⟩, _, rfl, by decide⟩

theorem witness_OnlyASuccessfulEncodeWritesOut :
    (∃ t, exec .encode (withOpts [⟨65805, []⟩]) = .next t ∧ t.status ≠ 0x0001) ∧
    (∃ t, exec .clear fullState = .next t) ∧ Instr.clear ≠ .encode :=
  ⟨⟨_, rfl, by decide⟩, ⟨_, rfl⟩, by decide⟩

theorem witness_OnlyTheListedCommandsWriteTheMrf :
    (∃ t, exec (.setCode 7) fullState = .next t) ∧ (Instr.setCode 7).format = .cmd ∧
    (∀ b, Instr.setCode 7 ≠ .decode b) ∧ Instr.setCode 7 ≠ .clear :=
  ⟨⟨_, rfl⟩, rfl, (by intro _ h; cases h), by decide⟩

theorem witness_StepsKeepParametersAndTakeInputInOrder :
    (∃ t, step { fullState with input := [0x03, 0x02] } = .next t) ∧ ∃ t, step (busy (atBody 0 [0xFF])) = .next t :=
  ⟨⟨_, rfl⟩, _, rfl⟩

theorem witness_ResetMeetsTheInvariant :
    Config.wf Config.default = true ∧ Config.wf { msgMax := some 4, optMax := some 0, storeMax := some 4 } = true := by
  decide

/-- The invariant holds in a block in mid-DECODE too, and its step answers a next state. -/
theorem witness_EveryStepKeepsTheInvariant :
    State.Inv (busy (atBody 0 [0x11, 0xAA])) ∧ (∃ t, step (busy (atBody 0 [0x11, 0xAA])) = .next t) ∧
    fullState.Inv ∧ ∃ t, step { fullState with input := [0x03] } = .next t := by
  refine ⟨⟨by decide, ⟨by decide, .nil, by decide, by decide⟩, ⟨by decide, by decide, by decide⟩, by decide, ?_⟩,
    ⟨_, rfl⟩, fullState_inv, _, rfl⟩
  intro w h
  cases h
  exact ⟨by decide, (by intro h; cases h), by decide, by decide, .nil, (by intro _ h; cases h), by decide, by decide, rfl⟩

/-- Two idle blocks that agree on the MRF only, and two that agree on STATUS and OUT too. -/
theorem witness_CommandsRestOnTheArchitecturalStateAlone :
    (Instr.setCode 7).format = .cmd ∧ (Instr.readOut 0).format = .readSel ∧
    (∀ sel idx, Instr.setCode 7 ≠ .read sel idx) ∧
    State.work { fullState with status := 0x0603, out := [0xAA], input := [0x03], responses := [⟨none, []⟩] } = .idle ∧
    fullState.work = .idle ∧ fullState.alone.work = .idle ∧ fullState.cfg = fullState.alone.cfg ∧
    fullState.mrf = fullState.alone.mrf ∧ fullState.status = fullState.alone.status ∧
    fullState.out = fullState.alone.out :=
  ⟨rfl, rfl, (by intro _ _ h; cases h), rfl, rfl, rfl, rfl, rfl, rfl, rfl⟩

/-- Two instances, ENCODE at the port of one and SET_TYPE at the port of the other. -/
theorem witness_InstancesAreIndependent :
    let bank : List State := [{ State.reset with input := [0x02] }, { fullState with input := [0x10, 3] }]
    (0 : Nat) ≠ 1 ∧ bank[0]? = some { State.reset with input := [0x02] } ∧
    bank[1]? = some { fullState with input := [0x10, 3] } ∧ State.reset.work = .idle ∧ fullState.work = .idle ∧
    decodeCommand [0x02] = .command .encode [] ∧ decodeCommand [0x10, 3] = .command (.setType 3) [] :=
  ⟨by decide, rfl, rfl, rfl, rfl, rfl, rfl⟩

end Sys2Proof.Tests
end

section
/-! What an error response says about the next state of a host command (00 R11, 60 R204). -/

namespace Sys2Proof.Machine

/-- Every READ row gives its answer through `runRead` (42 R173). -/
theorem readRow_eq_runRead {i : Instr} (s : State) (hf : i.format = .readSel) : ∃ r, exec i s = runRead s r := by
  cases i with
  | readVer | readType | readTkl | readCode | readMid | readToken | readOptCount | readOptNum | readOptVal
  | readPayload | readStatus | readOutLen | readOut | readReserved =>
    simp only [exec, execReadVer, execReadType, execReadTkl, execReadCode, execReadMid, execReadToken, execReadOptCount,
      execReadOptNum, execReadOptVal, execReadPayload, execReadStatus, execReadOutLen, execReadOut, execReadReserved]
    exact ⟨_, rfl⟩
  | _ => cases hf

/-- READ gives its answer through `runRead`, in either of its two forms. -/
theorem read_eq_runRead {i : Instr} (s : State) (hi : (∃ sel idx, i = .read sel idx) ∨ i.format = .readSel) :
    ∃ r, exec i s = runRead s r := by
  rcases hi with ⟨sel, idx, rfl⟩ | hf
  · rw [exec_read]
    exact readRow_eq_runRead s (selectRow_format sel idx)
  · exact readRow_eq_runRead s hf

/-- A READ that reports an error gives that response, without bytes, and changes nothing else. -/
theorem read_next_of_error {i : Instr} {s t : State} {e : Err} {d : Bytes}
    (hi : (∃ sel idx, i = .read sel idx) ∨ i.format = .readSel) (h : exec i s = .next t)
    (hr : t.responses = ⟨some e, d⟩ :: s.responses) :
    s.work = .idle ∧ d = [] ∧ t = s.respond (some e) [] := by
  obtain ⟨r, hexec⟩ := read_eq_runRead s hi
  obtain ⟨hw, ⟨data, -, rfl⟩ | ⟨e', -, rfl⟩⟩ := runRead_next (hexec ▸ h)
  · simp at hr
  · obtain ⟨rfl, rfl⟩ : e' = e ∧ [] = d := by simpa using hr
    exact ⟨hw, rfl, rfl⟩

/-- A command other than READ that reports an error ends as `afterError` says. -/
theorem command_next_of_error {i : Instr} {s t : State} {e : Err} {d : Bytes} (hf : i.format = .cmd)
    (hn : ∀ sel idx, i ≠ .read sel idx) (h : exec i s = .next t) (hr : t.responses = ⟨some e, d⟩ :: s.responses) :
    s.work = .idle ∧ d = [] ∧ t = s.afterError e := by
  obtain ⟨hw, ⟨m, out, -, rfl⟩ | ⟨e', rfl⟩⟩ := command_next hf hn h
  · simp at hr
  · obtain ⟨rfl, rfl⟩ : e' = e ∧ [] = d := by simpa using hr
    exact ⟨hw, rfl, rfl⟩

/-- Settles O49: an error response means the command ended by `respond` (a READ) or by `afterError` (any other), and
neither writes more than STATUS and the response. -/
theorem failingCommandsCommitNothing : Obligations.FailingCommandsCommitNothing := by
  intro i s t e d hf h hr
  by_cases hread : (∃ sel idx, i = .read sel idx) ∨ i.format = .readSel
  · obtain ⟨hw, hd, rfl⟩ := read_next_of_error hread h hr
    exact ⟨rfl, hw, hd, hread.elim .inl fun hrow => .inr (.inl hrow)⟩
  · obtain ⟨hnotRead, hnotRow⟩ := not_or.mp hread
    obtain ⟨hw, hd, rfl⟩ := command_next_of_error (hf.resolve_right hnotRow)
      (fun sel idx hi => hnotRead ⟨sel, idx, hi⟩) h hr
    exact ⟨rfl, hw, hd, .inr (.inr rfl)⟩

end Sys2Proof.Machine
end

section
/-! EXT_RESOLVE by its nibble (41 R120 to R124): what it answers, and how a reserved nibble ends DECODE after well-formed
entries. -/

namespace Sys2Proof.Machine

/-! ## EXT_RESOLVE by the nibble (41 R120 to R123) -/

/-- One extension byte does not fit after the end of the buffer (R122). -/
theorem resolveB_truncated {buf : Bytes} {pos : Nat} (h : buf.length ≤ pos) :
    resolveB buf pos = .error .truncatedOption :=
  if_pos (by omega)

/-- Two extension bytes do not fit where at most one byte is left (R123). -/
theorem resolveW_truncated {buf : Bytes} {pos : Nat} (h : buf.length ≤ pos + 1) :
    resolveW buf pos = .error .truncatedOption :=
  if_pos (by omega)

/-- A resolved value has an encoding, and so is at most 65804. -/
theorem extResolve_le {v : BitVec 4} {buf : Bytes} {pos r p : Nat} (h : extResolve v buf pos = .ok (r, p)) :
    r ≤ 65804 := by
  rcases extResolve_cases v buf pos with ⟨x, rest, w, hform, -, hok⟩ | ⟨herr, -⟩ | ⟨-, herr⟩
  · obtain ⟨rfl, -⟩ : w = r ∧ pos + x.length = p := by simpa [hok] using h
    exact hform.le
  · simp [herr] at h
  · simp [herr] at h

/-- Settles O5: each clause is a row of the table of R76, resolved at the cursor, or one of the two errors of its class. -/
theorem extensionResolvesByItsNibble : Obligations.ExtensionResolvesByItsNibble := by
  intro v inBuf pos
  refine ⟨fun hv => ?_, ?_, ?_, ?_, ?_, ?_, fun r p h => extResolve_le h⟩
  · rw [extResolve_literal v hv]; rfl
  · rintro e rest rfl hdrop
    exact extResolve_of_extForm (.byte e) hdrop
  · rintro rfl hend
    exact resolveB_truncated hend
  · rintro e1 e2 rest rfl hdrop
    exact extResolve_of_extForm (.word e1 e2) hdrop
  · rintro rfl hend
    exact resolveW_truncated hend
  · rintro rfl; rfl

/-! ## An entry that fails (41 R124, R127) -/

/-- An error in resolving the delta ends the entry before its length is looked at. -/
theorem entryBody_of_delta_error {delta len : Resolver} {buf : Bytes} {pos : Nat} {e : Err}
    (h : delta buf pos = .error e) (num : BitVec 32) : entryBody delta len buf pos num = .error e := by
  simp only [entryBody, h, bind, Except.bind]

/-- An error in resolving the length ends an entry whose delta is resolved. -/
theorem entryBody_of_len_error {delta len : Resolver} {buf : Bytes} {pos d pos' : Nat} {e : Err}
    (hd : delta buf pos = .ok (d, pos')) (hl : len buf pos' = .error e) (num : BitVec 32) :
    entryBody delta len buf pos num = .error e := by
  simp only [entryBody, hd, hl, bind, Except.bind]

/-- One turn of the loop at a descriptor other than the sentinel whose entry fails. -/
theorem optSeqDecode_of_entry_error {cfg : Config} {turns : Nat} {buf : Bytes} {pos : Nat} {x : Byte} {rest : Bytes}
    {num : BitVec 32} {opts : List Opt} {e : Err} (ht : buf.length - pos ≤ turns) (hdrop : buf.drop pos = x :: rest)
    (hx : x ≠ 0xFF)
    (hbad : entryBody (extResolve (hiNibble x)) (extResolve (loNibble x)) buf (pos + 1) num = .error e) :
    optSeqDecode cfg turns buf pos num opts = .error e := by
  have hlen : buf.length - pos = rest.length + 1 := by simpa using congrArg List.length hdrop
  obtain ⟨turns, rfl⟩ : ∃ k, turns = k + 1 := ⟨turns - 1, by omega⟩
  have hne : memReadU buf pos 1 ≠ 0xFF := by
    rw [memReadU_one buf pos x rest hdrop]
    exact fun h => hx (BitVec.eq_of_toNat_eq h)
  rw [optSeqDecode, if_neg (by omega), if_neg hne, optEntryDecode_eq hdrop, hbad]
  rfl

/-! ## The loop passes well-formed entries (41 R129) -/

/-- One turn of the loop at a well-formed entry whose number does not overflow, with room for one more option. -/
theorem optSeqDecode_entry {cfg : Config} {buf : Bytes} {turns pos delta : Nat} {num num' : BitVec 32} {opts : List Opt}
    {dn ln : BitVec 4} {dx lx val rest : Bytes} (hd : ExtForm dn dx delta) (hl : ExtForm ln lx val.length)
    (hdrop : buf.drop pos = ofNibbles dn ln :: (dx ++ (lx ++ (val ++ rest)))) (hn : num'.toNat = num.toNat + delta)
    (hroom : cfg.optMax ≠ some opts.length) :
    optSeqDecode cfg (turns + 1) buf pos num opts =
      optSeqDecode cfg turns buf (pos + 1 + dx.length + lx.length + val.length) num' (opts ++ [⟨num', val⟩]) := by
  have hlen := congrArg List.length hdrop
  rw [List.length_drop, List.length_cons] at hlen
  have hne : memReadU buf pos 1 ≠ 0xFF := by
    rw [memReadU_one buf pos _ _ hdrop]
    exact fun h => ofNibbles_ne_sentinel hd (BitVec.eq_of_toNat_eq h)
  have hnum : BitVec.ofNat 32 (num.toNat + delta) = num' := by rw [← hn]; simp
  have hentry := entryBody_of_form hd hl (drop_add_of_drop_eq (a := [ofNibbles dn ln]) hdrop) num
  rw [List.length_singleton, if_neg (by have := num'.isLt; omega), hnum] at hentry
  have happ : appendOpt cfg opts ⟨num', val⟩ = .ok (opts ++ [⟨num', val⟩]) :=
    (appendOpt_cases cfg opts _).elim (fun h => absurd h.1 hroom) (·.2)
  rw [optSeqDecode, if_neg (by omega), if_neg hne, optEntryDecode_eq hdrop, hiNibble_ofNibbles, loNibble_ofNibbles,
    hentry]
  simp only [bind, Except.bind, happ]

/-- A bound that a number above `n` keeps is not `n` itself. -/
theorem ne_of_fits_gt {b : Option Nat} {m n : Nat} (h : fits b m = true) (hlt : n < m) : b ≠ some n := by
  rintro rfl
  simp only [fits, decide_eq_true_eq] at h
  omega

/-- The loop over a run of entries that keeps `OPT_MAX` goes on after the run, with the run's options appended. -/
theorem optSeqDecode_entries {cfg : Config} {buf : Bytes} {prev : Nat} {body : Bytes} {new : List Opt}
    (hent : Entries prev body new) :
    ∀ {turns pos : Nat} {num : BitVec 32} {opts : List Opt} {tail : Bytes}, prev = num.toNat →
      buf.length - pos ≤ turns → buf.drop pos = body ++ tail → fits cfg.optMax (opts.length + new.length) = true →
      ∃ turns' num', buf.length - (pos + body.length) ≤ turns' ∧
        optSeqDecode cfg turns buf pos num opts =
          optSeqDecode cfg turns' buf (pos + body.length) num' (opts ++ new) := by
  induction hent with
  | nil =>
    intro turns pos num opts tail _ ht _ _
    exact ⟨turns, num, ht, by simp⟩
  | cons prev delta num' dn ln dx lx val rest new hd hl hn _ ih =>
    intro turns pos num opts tail hprev ht hdrop hfit
    have hdrop' : buf.drop pos = ofNibbles dn ln :: (dx ++ (lx ++ (val ++ (rest ++ tail)))) := by simpa using hdrop
    have hlen := congrArg List.length hdrop'
    simp only [List.length_drop, List.length_cons] at hlen
    obtain ⟨turns, rfl⟩ : ∃ k, turns = k + 1 := ⟨turns - 1, by omega⟩
    have hnext : buf.drop (pos + 1 + dx.length + lx.length + val.length) = rest ++ tail :=
      drop_add_of_drop_eq (drop_add_of_drop_eq (drop_add_of_drop_eq
        (drop_add_of_drop_eq (a := [ofNibbles dn ln]) hdrop')))
    obtain ⟨turns', last, ht', heq⟩ := ih (turns := turns) (opts := opts ++ [⟨num', val⟩]) rfl (by omega) hnext
      (by simpa [Nat.add_assoc, Nat.add_comm 1] using hfit)
    have hend : pos + (ofNibbles dn ln :: (dx ++ lx ++ val ++ rest)).length =
        pos + 1 + dx.length + lx.length + val.length + rest.length := by
      simp only [List.length_cons, List.length_append]; omega
    refine ⟨turns', last, by omega, ?_⟩
    rw [optSeqDecode_entry hd hl hdrop' (hn.trans (by rw [hprev])) (ne_of_fits_gt hfit (by simp)), heq, hend]
    simp

/-! ## DECODE up to its options (42 R161 to R163) -/

/-- After the header and token of a message with bytes behind them, DECODE's computation is the option loop: an error there
is its error. -/
theorem decodeMessage_of_opts_error {cfg : Config} {m : Message} {t : Bytes} {e : Err} (h8 : m.token.length ≤ 8)
    (hf : fits cfg.msgMax (headerBytes m ++ (m.token ++ t)).length = true) (ht : t ≠ [])
    (hopts : optSeqDecode cfg t.length (headerBytes m ++ (m.token ++ t)) (4 + m.token.length) 0 [] = .error e) :
    decodeMessage cfg (headerBytes m ++ (m.token ++ t)) = .error e := by
  have hk : (BitVec.ofNat 4 m.token.length).toNat = m.token.length := by rw [BitVec.toNat_ofNat]; omega
  have hpos : 0 < t.length := List.length_pos_iff.mpr ht
  have hlen : (headerBytes m ++ (m.token ++ t)).length = 4 + m.token.length + t.length := by
    simp [headerBytes]; omega
  have htok : tokenExtract (headerBytes m ++ (m.token ++ t)) m.token.length = .ok (m.token, 4 + m.token.length) := by
    rcases tokenExtract_cases (headerBytes m ++ (m.token ++ t)) m.token.length with ⟨hlt, -⟩ | ⟨-, h⟩
    · omega
    · rw [h, show (headerBytes m ++ (m.token ++ t)).drop 4 = m.token ++ t from rfl, List.take_left]
  rw [decodeMessage, if_neg (ne_of_eq_of_ne hf (by decide))]
  simp only [hdrParse_headerBytes m _ h8, hk, htok, bind, Except.bind]
  rw [if_neg (by omega), hlen, Nat.add_sub_cancel_left, hopts]

/-- DECODE in an idle block, where its computation gives an error. -/
theorem exec_decode_of_error {s : State} {b : Bytes} {e : Err} (hw : s.work = .idle)
    (h : decodeMessage s.cfg b = .error e) : exec (.decode b) s = .next (s.afterError e) := by
  show runCommand s _ = _
  rw [h]
  exact runCommand_idle hw _

/-! ## A descriptor byte by its nibbles (30 R75) -/

theorem hiNibble_toNat (b : Byte) : (hiNibble b).toNat = b.toNat / 16 := by revert b; decide

theorem loNibble_toNat (b : Byte) : (loNibble b).toNat = b.toNat % 16 := by revert b; decide

/-- A byte is determined by the values of its two nibbles. -/
theorem eq_ofNibbles {x : Byte} {hi lo : BitVec 4} (h : x.toNat = hi.toNat * 16 + lo.toNat) : x = ofNibbles hi lo := by
  have hlt := lo.isLt
  rw [← ofNibbles_eta x, BitVec.eq_of_toNat_eq (x := hiNibble x) (y := hi) (by rw [hiNibble_toNat]; omega),
    BitVec.eq_of_toNat_eq (x := loNibble x) (y := lo) (by rw [loNibble_toNat]; omega)]

/-! ## DECODE at an entry that fails (41 R124) -/

/-- DECODE of well-formed entries and then a descriptor, not the sentinel, whose entry fails wherever the bytes after it
stand and whatever the running number: the entry's error is the command's. -/
theorem exec_decode_of_entry_error {s : State} {m : Message} {body rest : Bytes} {x : Byte} {e : Err}
    (hw : s.work = .idle) (h8 : m.token.length ≤ 8) (hent : Entries 0 body m.opts)
    (hopt : fits s.cfg.optMax m.opts.length = true)
    (hmsg : fits s.cfg.msgMax (headerBytes m ++ m.token ++ body ++ x :: rest).length = true) (hx : x ≠ 0xFF)
    (hbad : ∀ (buf : Bytes) (pos : Nat) (num : BitVec 32), buf.drop pos = rest →
      entryBody (extResolve (hiNibble x)) (extResolve (loNibble x)) buf pos num = .error e) :
    exec (.decode (headerBytes m ++ m.token ++ body ++ x :: rest)) s = .next (s.afterError e) := by
  rw [List.append_assoc, List.append_assoc] at hmsg ⊢
  refine exec_decode_of_error hw (decodeMessage_of_opts_error h8 hmsg (by simp) ?_)
  generalize hb : headerBytes m ++ (m.token ++ (body ++ x :: rest)) = buf
  have hbody : buf.drop (4 + m.token.length) = body ++ x :: rest :=
    drop_add_of_drop_eq (i := 4) (by rw [← hb]; rfl)
  have hdesc := drop_add_of_drop_eq hbody
  have hturns : buf.length - (4 + m.token.length) ≤ (body ++ x :: rest).length := by
    rw [← List.length_drop, hbody]
  obtain ⟨turns, num, ht, heq⟩ := optSeqDecode_entries hent (num := 0) (opts := []) rfl hturns hbody (by simpa using hopt)
  rw [heq]
  exact optSeqDecode_of_entry_error ht hdesc hx (hbad _ _ _ (drop_add_of_drop_eq (a := [x]) hdesc))

/-- Settles O27: the loop reaches the descriptor, and its entry fails in the delta (nibble 15, or nibble 13 with no byte
left) or in the length (nibble 15) after the delta is resolved. -/
theorem decodeRejectsAReservedNibble : Obligations.DecodeRejectsAReservedNibble := by
  intro s m body rest x hw h8 hent hopt b hmsg
  refine ⟨fun hhi hlo => ?_, ?_, ?_⟩
  · have hnib : hiNibble x = 15 := BitVec.eq_of_toNat_eq ((hiNibble_toNat x).trans hhi)
    refine exec_decode_of_entry_error hw h8 hent hopt hmsg (by rintro rfl; exact hlo rfl) fun buf pos num _ => ?_
    exact entryBody_of_delta_error (by rw [hnib, extResolve_15]; rfl) num
  · rintro d dx r delta hd hxd rfl
    obtain rfl : x = ofNibbles d 15 := eq_ofNibbles hxd
    refine exec_decode_of_entry_error hw h8 hent hopt hmsg (ofNibbles_ne_sentinel hd) fun buf pos num hdrop => ?_
    rw [hiNibble_ofNibbles, loNibble_ofNibbles]
    exact entryBody_of_len_error (extResolve_of_extForm hd hdrop) rfl num
  · rintro rfl rfl
    refine exec_decode_of_entry_error hw h8 hent hopt hmsg (by decide) fun buf pos num hdrop => ?_
    exact entryBody_of_delta_error (resolveB_truncated (List.drop_eq_nil_iff.mp hdrop)) num

end Sys2Proof.Machine
end

section
/-! The commands that write the MRF's fields without a capacity check: SET_TYPE, SET_CODE, SET_MID, SET_TOKEN and CLEAR
(42 R166 to R170). -/

namespace Sys2Proof

/-! ## Their bytes at the port (30 R85, R86) -/

/-- A command stands at the port where its opcode is followed by operands that decode. -/
theorem decodeCommand_of_operands {op : Byte} {bs rest : Bytes} {i : Instr}
    (h : decodeOperands op bs = some (i, rest)) : decodeCommand (op :: bs) = .command i rest := by
  rw [decodeCommand, h]

theorem decodeOperands_setMid {bs rest : Bytes} {m : BitVec 16} (h : take16 bs = some (m, rest)) :
    decodeOperands 0x12 bs = some (.setMid m, rest) := by
  simp [decodeOperands, h]

theorem decodeOperands_setToken {k : Byte} {bs token rest : Bytes} (h : takeBytes k.toNat bs = some (token, rest)) :
    decodeOperands 0x13 (k :: bs) = some (.setToken token, rest) := by
  simp [decodeOperands, take8, h]

/-- The quotient and the remainder by 256 are the bytes of a big-endian 16-bit field. -/
theorem bytes16_div_mod (v : BitVec 16) :
    bytes16 v = [BitVec.ofNat 8 (v.toNat / 256), BitVec.ofNat 8 (v.toNat % 256)] := by
  have hlow : BitVec.ofNat 8 (v.toNat % 256) = BitVec.ofNat 8 v.toNat := BitVec.eq_of_toNat_eq (by simp)
  simp only [bytes16_toNat, hlow, Nat.reducePow]

/-- A byte sequence written after its 8-bit length is read back. -/
theorem takeBytes_sized8 {bs : Bytes} (h : bs.length < 256) (rest : Bytes) :
    takeBytes (BitVec.ofNat 8 bs.length).toNat (bs ++ rest) = some (bs, rest) := by
  rw [BitVec.toNat_ofNat, Nat.mod_eq_of_lt h, takeBytes_append]

end Sys2Proof

namespace Sys2Proof.Machine

/-! ## How they end in an idle block -/

/-- A command whose pseudocode succeeds commits its writes. -/
theorem runCommand_of_ok {s s' : State} {r : Except Err State} (hw : s.work = .idle) (hr : r = .ok s') :
    runCommand s r = .next s'.afterSuccess := by
  rw [runCommand_idle hw, hr]

/-- A command whose pseudocode fails records its error. -/
theorem runCommand_of_error {s : State} {r : Except Err State} {e : Err} (hw : s.work = .idle) (hr : r = .error e) :
    runCommand s r = .next (s.afterError e) := by
  rw [runCommand_idle hw, hr]

/-! ## The obligations -/

/-- Settles O15: the operand's bound chooses between the two ends of a command, and below it the two bits kept are the
whole value. -/
theorem setTypeStoresOrRejects : Obligations.SetTypeStoresOrRejects := by
  intro s t rest hw
  refine ⟨rfl, fun hle => ?_, fun hgt => runCommand_of_error hw (if_pos hgt)⟩
  rw [BitVec.ofNat_toNat]
  exact runCommand_of_ok hw (if_neg (Nat.not_lt.mpr hle))

/-- Settles O16: neither command has a failing branch, and the two operand bytes of SET_MID are `bytes16` of the field. -/
theorem setCodeAndSetMidStoreTheirOperand : Obligations.SetCodeAndSetMidStoreTheirOperand := by
  intro s rest hw
  refine ⟨fun c => ⟨rfl, runCommand_of_ok hw rfl⟩, fun m => ⟨?_, runCommand_of_ok hw rfl⟩⟩
  have htake := take16_bytes16 m rest
  rw [bytes16_div_mod] at htake
  exact decodeCommand_of_operands (decodeOperands_setMid htake)

/-- Settles O17: a token below 256 bytes is read back after its length byte, and the bound 8 chooses between the two ends
of a command. -/
theorem setTokenStoresOrRejects : Obligations.SetTokenStoresOrRejects := by
  intro s token rest hw
  refine ⟨fun hlt => ?_, fun hle => ?_, fun hgt => ?_⟩
  · exact decodeCommand_of_operands (decodeOperands_setToken (takeBytes_sized8 hlt rest))
  · exact runCommand_of_ok hw (if_neg (Nat.not_lt.mpr hle))
  · exact runCommand_of_error hw (if_pos hgt)

/-- Settles O21: CLEAR has no operands and no failing branch, and what it commits is `Message.default`. -/
theorem clearSetsTheDefaultMessage : Obligations.ClearSetsTheDefaultMessage := by
  intro s rest hw
  exact ⟨rfl, runCommand_of_ok hw rfl⟩

end Sys2Proof.Machine
end

section
/-! DECODE and ENCODE as whole commands (42 R161 to R165, R176 to R178): each succeeds exactly on its wire form, and each
undoes the other. -/

namespace Sys2Proof.Machine

/-! ## How the two commands end -/

/-- DECODE in an idle block, where its computation gives a message. -/
theorem exec_decode_of_ok {s : State} {b : Bytes} {m : Message} (hw : s.work = .idle)
    (h : decodeMessage s.cfg b = .ok m) : exec (.decode b) s = .next (State.afterSuccess { s with mrf := m }) :=
  runCommand_of_ok hw (by rw [h]; rfl)

/-- ENCODE in an idle block, where its computation gives the bytes. -/
theorem exec_encode_of_ok {s : State} {out : Bytes} (hw : s.work = .idle) (h : encodeMessage s.cfg s.mrf = .ok out) :
    exec .encode s = .next (State.afterSuccess { s with out := out }) :=
  runCommand_of_ok hw (by rw [h]; rfl)

/-- ENCODE in an idle block, where its computation gives an error. -/
theorem exec_encode_of_error {s : State} {e : Err} (hw : s.work = .idle) (h : encodeMessage s.cfg s.mrf = .error e) :
    exec .encode s = .next (s.afterError e) :=
  runCommand_of_error hw (by rw [h]; rfl)

/-- A command other than READ that leaves STATUS 0x0001 has committed. -/
theorem command_next_of_success {i : Instr} {s t : State} (hf : i.format = .cmd) (hn : ∀ sel idx, i ≠ .read sel idx)
    (h : exec i s = .next t) (hst : t.status = 0x0001) :
    s.work = .idle ∧ ∃ m out, Commits s i m out ∧ t = State.afterSuccess { s with mrf := m, out } := by
  obtain ⟨hw, hok | ⟨e, rfl⟩⟩ := command_next hf hn h
  · exact ⟨hw, hok⟩
  · exact absurd hst (errCode_status_ne e)

/-- A message that DECODE's computation gives is the one whose wire form the operand is, within the capacities. -/
theorem decodeMessage_ok {cfg : Config} {b : Bytes} {m : Message} (h : decodeMessage cfg b = .ok m) :
    fits cfg.msgMax b.length = true ∧ MessageForm m b ∧ fits cfg.optMax m.opts.length = true := by
  rcases decodeMessage_cases cfg b with ⟨m', hmsg, hform, hopt, hok⟩ | ⟨e, -, herr⟩
  · obtain rfl : m' = m := by simpa [hok] using h
    exact ⟨hmsg, hform, hopt⟩
  · simp [herr] at h

/-- A DECODE that leaves STATUS 0x0001 has committed the message whose wire form its operand is. -/
theorem decode_next_of_success {s t : State} {b : Bytes} (h : exec (.decode b) s = .next t) (hst : t.status = 0x0001) :
    s.work = .idle ∧ ∃ m, fits s.cfg.msgMax b.length = true ∧ MessageForm m b ∧
      t = State.afterSuccess { s with mrf := m } := by
  obtain ⟨hw, m, out, hcommit, rfl⟩ := command_next_of_success rfl (fun _ _ => by simp) h hst
  cases hcommit with
  | decode _ _ hok =>
    obtain ⟨hmsg, hform, -⟩ := decodeMessage_ok hok
    exact ⟨hw, m, hmsg, hform, rfl⟩

/-- Settles O23: a message that the operand spells is decoded, and a message that is committed was spelled. -/
theorem decodeAcceptsExactlyTheWireFormat : Obligations.DecodeAcceptsExactlyTheWireFormat := by
  intro s b m hw
  refine ⟨fun h => ?_, fun ⟨hmsg, hform, hopt⟩ => exec_decode_of_ok hw (decodeMessage_of_form hmsg hform hopt)⟩
  obtain ⟨-, m', out, hcommit, heq⟩ := command_next_of_success rfl (fun _ _ => by simp) h rfl
  obtain rfl : m = m' := congrArg State.mrf heq
  cases hcommit with
  | decode _ _ hok => exact decodeMessage_ok hok

/-- Settles O24: DECODE's computation gives a message or one of these errors, and the command ends accordingly. -/
theorem decodeEndsInAMessageOrADecodeError : Obligations.DecodeEndsInAMessageOrADecodeError := by
  intro s b hw
  rcases decodeMessage_cases s.cfg b with ⟨m, -, -, -, hok⟩ | ⟨e, he, herr⟩
  · exact .inl ⟨m, exec_decode_of_ok hw hok⟩
  · exact .inr ⟨e, he, exec_decode_of_error hw herr⟩

/-! ## What the wire form says of a message -/

theorem WireForm.sorted {m : Message} {tail b : Bytes} (h : WireForm m tail b) : NumsSorted m.opts := by
  obtain ⟨-, body, hent, -⟩ := h
  exact hent.sorted.1

theorem WireForm.representable {m : Message} {tail b : Bytes} (h : WireForm m tail b) : Representable 0 m.opts := by
  obtain ⟨-, body, hent, -⟩ := h
  exact hent.representable.1

theorem WireForm.length {m : Message} {tail b : Bytes} (h : WireForm m tail b) :
    b.length = 4 + m.token.length + optionBytes 0 m.opts + tail.length := by
  obtain ⟨-, body, hent, rfl⟩ := h
  simp only [List.length_append, hent.representable.2.1]
  rfl

/-- A message and what follows its options determine the bytes. -/
theorem WireForm.unique {m : Message} {tail b b' : Bytes} (h : WireForm m tail b) (h' : WireForm m tail b') :
    b' = b := by
  obtain ⟨-, body, hent, rfl⟩ := h
  obtain ⟨-, body', hent', rfl⟩ := h'
  rw [hent.unique hent']

/-- A message on the wire has a form with some tail. -/
theorem MessageForm.wireForm {m : Message} {b : Bytes} (h : MessageForm m b) : ∃ tail, WireForm m tail b :=
  h.elim (fun h => ⟨_, h.2⟩) (fun h => ⟨_, h⟩)

/-- What the encoder emits is the message on the wire. -/
theorem EncoderForm.messageForm {m : Message} {b : Bytes} (h : EncoderForm m b) : MessageForm m b := by
  unfold EncoderForm at h
  split at h
  · exact .inl ⟨‹_›, h⟩
  · exact .inr h

/-- A message on the wire without a trailing sentinel is what the encoder emits. -/
theorem MessageForm.encoderForm {m : Message} {b : Bytes} (h : MessageForm m b) (hn : ¬ TrailingSentinelForm m b) :
    EncoderForm m b := by
  unfold EncoderForm
  split
  next hp =>
    rcases h with ⟨-, hw⟩ | hw
    · exact hw
    · exact absurd ⟨hp, hp ▸ hw⟩ hn
  next hp =>
    rcases h with ⟨hp', -⟩ | hw
    · exact absurd hp' hp
    · exact hw

/-- A message on the wire with a trailing sentinel is what the encoder emits and one byte more. -/
theorem TrailingSentinelForm.encoderForm_dropLast {m : Message} {b : Bytes} (h : TrailingSentinelForm m b) :
    EncoderForm m b.dropLast := by
  obtain ⟨hp, h8, body, hent, rfl⟩ := h
  rw [EncoderForm, if_pos hp]
  exact ⟨h8, body, hent, by rw [List.dropLast_concat, List.append_nil]⟩

theorem EncoderForm.length {m : Message} {b : Bytes} (h : EncoderForm m b) : b.length = wireSize m := by
  rw [WireForm.length h, wireSize]
  split <;> simp [Nat.add_comm]

/-- ENCODE's computation gives the encoder's form of a message, where it keeps `MSG_MAX`. -/
theorem encodeMessage_of_form {cfg : Config} {m : Message} {b : Bytes} (h : EncoderForm m b)
    (hmsg : fits cfg.msgMax b.length = true) : encodeMessage cfg m = .ok b := by
  rw [h.length] at hmsg
  rcases encodeMessage_cases cfg m h.1 (WireForm.sorted h) with ⟨hr, -⟩ | ⟨-, hf, -⟩ | ⟨-, -, out, hok, hout, -⟩
  · exact absurd (WireForm.representable h) hr
  · simp [hmsg] at hf
  · rw [hok, WireForm.unique h hout]

/-- ENCODE in an idle block whose message the encoder spells as `b`, within `MSG_MAX`. -/
theorem exec_encode_of_form {s : State} {b : Bytes} (hw : s.work = .idle) (h : EncoderForm s.mrf b)
    (hmsg : fits s.cfg.msgMax b.length = true) : exec .encode s = .next (State.afterSuccess { s with out := b }) :=
  exec_encode_of_ok hw (encodeMessage_of_form h hmsg)

/-- Settles O28: the options of a run of entries are sorted, and those DECODE commits are such a run. -/
theorem decodedOptionsAreSorted : Obligations.DecodedOptionsAreSorted := by
  intro s t b h hst
  obtain ⟨-, m, -, hform, rfl⟩ := decode_next_of_success h hst
  obtain ⟨tail, hwire⟩ := hform.wireForm
  exact hwire.sorted

/-! ## ENCODE -/

/-- Settles O29: within the format and `MSG_MAX`, only the successful one of the three ends of ENCODE is left. -/
theorem encodeEmitsTheWireFormat : Obligations.EncodeEmitsTheWireFormat := by
  intro s hw h8 hsorted hrep hmsg
  rcases encodeMessage_cases s.cfg s.mrf h8 hsorted with ⟨hr, -⟩ | ⟨-, hf, -⟩ | ⟨-, -, out, hok, hform, hlen⟩
  · exact absurd hrep hr
  · simp [hmsg] at hf
  · exact ⟨out, exec_encode_of_ok hw hok, hform, hlen⟩

/-- Settles O30: SIZE raises the first error, and the bound on what SIZE gives the second, before a byte is written. -/
theorem encodeChecksInOrder : Obligations.EncodeChecksInOrder := by
  intro s hw _
  rcases sizeOf_cases s.mrf with ⟨hr, hsize⟩ | ⟨hr, hsize⟩
  · refine ⟨fun h => absurd hr h, fun _ hf => exec_encode_of_error hw ?_⟩
    simp [encodeMessage, hsize, bind, Except.bind, hf]
  · refine ⟨fun _ => exec_encode_of_error hw ?_, fun h => absurd h hr⟩
    simp [encodeMessage, hsize, bind, Except.bind]

/-! ## The laws of file 42 (R176 to R178) -/

/-- Settles O31: without a trailing sentinel the operand is the encoder's form of the message committed, and that form
is unique. -/
theorem minimalEncodingRoundTrips : Obligations.MinimalEncodingRoundTrips := by
  intro s t b h hst hmin
  obtain ⟨hw, m, hmsg, hform, rfl⟩ := decode_next_of_success h hst
  exact exec_encode_of_form hw (hform.encoderForm hmin) hmsg

/-- Settles O32: the operand without its last byte is the encoder's form of the message committed. -/
theorem trailingSentinelIsDropped : Obligations.TrailingSentinelIsDropped := by
  intro s t b h hst htrail
  obtain ⟨hw, m, hmsg, -, rfl⟩ := decode_next_of_success h hst
  exact exec_encode_of_form hw htrail.encoderForm_dropLast (fits_mono hmsg (by simp))

/-- Settles O33: the OUT that ENCODE leaves is the message on the wire, within `MSG_MAX`, and the invariant bounds its
options, so DECODE accepts it. -/
theorem encodeThenDecodeRestoresTheMessage : Obligations.EncodeThenDecodeRestoresTheMessage := by
  intro s t hinv h hst
  obtain ⟨hw, m, out, hcommit, rfl⟩ := command_next_of_success rfl (fun _ _ => by simp) h hst
  cases hcommit with
  | encode _ hout =>
    rcases encodeMessage_cases s.cfg s.mrf hinv.mrf.token hinv.mrf.sorted with
      ⟨-, herr⟩ | ⟨-, -, herr⟩ | ⟨-, hmsg, out', hok, hform, hlen⟩
    · simp [hout] at herr
    · simp [hout] at herr
    · obtain rfl : out = out' := by simpa [hout] using hok
      exact ⟨exec_decode_of_ok hw (decodeMessage_of_form (hlen ▸ hmsg) hform.messageForm hinv.mrf.optCount), rfl⟩

end Sys2Proof.Machine
end

section
/-! The decoders of the four formats against the encoder (30 R71, R72, R83, R85 to R88): each reads back what is encoded,
and the command decoder loses nothing of what it reads. -/

namespace Sys2Proof

/-! ## Format CMD (30 R85 to R87) -/

/-- The value of an opcode decides whether it is one of the ten of R85. -/
theorem isCommandOpcode_eq_false {op : Byte} :
    isCommandOpcode op = false ↔ op.toNat ∉ [0x01, 0x02, 0x03, 0x10, 0x11, 0x12, 0x13, 0x14, 0x15, 0x20] :=
  decide_eq_false_iff_not

/-- An opcode that R85 does not list has no operands (R87). -/
theorem decodeOperands_reserved {op : Byte} (h : isCommandOpcode op = false) (bs : Bytes) :
    decodeOperands op bs = some (.reservedOpcode op, bs) := by
  have hop := isCommandOpcode_eq_false.mp h
  unfold decodeOperands
  split
  case h_11 => rfl
  all_goals exact absurd (by simp [*]) hop

theorem decodeOperands_decode {bs mid v rest : Bytes} {n : BitVec 32} (hlen : take32 bs = some (n, mid))
    (hval : takeBytes n.toNat mid = some (v, rest)) : decodeOperands 0x01 bs = some (.decode v, rest) := by
  simp [decodeOperands, hlen, hval]

theorem decodeOperands_addOption {bs mid mid' v rest : Bytes} {num n : BitVec 32} (hnum : take32 bs = some (num, mid))
    (hlen : take32 mid = some (n, mid')) (hval : takeBytes n.toNat mid' = some (v, rest)) :
    decodeOperands 0x14 bs = some (.addOption num v, rest) := by
  simp [decodeOperands, hnum, hlen, hval]

theorem decodeOperands_setPayload {bs mid v rest : Bytes} {n : BitVec 32} (hlen : take32 bs = some (n, mid))
    (hval : takeBytes n.toNat mid = some (v, rest)) : decodeOperands 0x15 bs = some (.setPayload v, rest) := by
  simp [decodeOperands, hlen, hval]

theorem decodeOperands_read {bs rest : Bytes} {sel : Byte} {idx : BitVec 32} (hidx : take32 bs = some (idx, rest)) :
    decodeOperands 0x20 (sel :: bs) = some (.read sel idx, rest) := by
  simp [decodeOperands, take8, hidx]

/-- The command decoder reads back the encoding of every well-formed command. -/
theorem decodeCommand_encode {i : Instr} (hf : i.format = .cmd) (hwf : i.wellFormed = true) (rest : Bytes) :
    decodeCommand (encode i ++ rest) = .command i rest := by
  cases i with
  | decode bs =>
    obtain ⟨hlen, hval⟩ := takeBytes_sized32 bs rest (by simpa [Instr.wellFormed] using hwf)
    exact decodeCommand_of_operands (decodeOperands_decode hlen hval)
  | encode | clear | setType | setCode => rfl
  | setMid m => exact decodeCommand_of_operands (decodeOperands_setMid (take16_bytes16 m rest))
  | setToken bs =>
    exact decodeCommand_of_operands (decodeOperands_setToken
      (takeBytes_sized8 (by simpa [Instr.wellFormed] using hwf) rest))
  | addOption num bs =>
    obtain ⟨hlen, hval⟩ := takeBytes_sized32 bs rest (by simpa [Instr.wellFormed] using hwf)
    have hnum := take32_bytes32 num (sized32 bs ++ rest)
    rw [← List.append_assoc] at hnum
    exact decodeCommand_of_operands (decodeOperands_addOption hnum hlen hval)
  | setPayload bs =>
    obtain ⟨hlen, hval⟩ := takeBytes_sized32 bs rest (by simpa [Instr.wellFormed] using hwf)
    exact decodeCommand_of_operands (decodeOperands_setPayload hlen hval)
  | read sel idx => exact decodeCommand_of_operands (decodeOperands_read (take32_bytes32 idx rest))
  | reservedOpcode op =>
    exact decodeCommand_of_operands (decodeOperands_reserved (by simpa [Instr.wellFormed] using hwf) rest)
  | _ => cases hf

/-- A 32-bit length and that many bytes are the bytes after their length. -/
theorem sized32_of_takeBytes {bs mid v rest : Bytes} {n : BitVec 32} (hlen : take32 bs = some (n, mid))
    (hval : takeBytes n.toNat mid = some (v, rest)) : bs = sized32 v ++ rest ∧ v.length < 2 ^ 32 := by
  obtain ⟨rfl, hv⟩ := takeBytes_some hval
  have hn : BitVec.ofNat 32 v.length = n := by rw [hv]; simp
  exact ⟨by rw [take32_some hlen, sized32, hn, List.append_assoc], hv ▸ n.isLt⟩

/-- An 8-bit length and that many bytes are the bytes after their length. -/
theorem sized8_of_takeBytes {bs mid v rest : Bytes} {k : Byte} (hlen : take8 bs = some (k, mid))
    (hval : takeBytes k.toNat mid = some (v, rest)) :
    bs = BitVec.ofNat 8 v.length :: (v ++ rest) ∧ v.length < 2 ^ 8 := by
  obtain ⟨rfl, hv⟩ := takeBytes_some hval
  have hk : BitVec.ofNat 8 v.length = k := by rw [hv]; simp
  exact ⟨by rw [take8_some hlen, hk], hv ▸ k.isLt⟩

/-- Everything that can be read after an opcode: a well-formed command whose bytes are those read. -/
theorem decodeOperands_some {op : Byte} {bs rest : Bytes} {i : Instr} (h : decodeOperands op bs = some (i, rest)) :
    i.wellFormed = true ∧ i.format = .cmd ∧ encode i ++ rest = op :: bs := by
  unfold decodeOperands at h
  split at h
  next hop =>
    obtain rfl : op = 0x01 := BitVec.eq_of_toNat_eq hop
    split at h <;> [cases h; skip]
    next hlen =>
      split at h <;> cases h
      next hval =>
        obtain ⟨rfl, hlt⟩ := sized32_of_takeBytes hlen hval
        exact ⟨by simpa [Instr.wellFormed] using hlt, rfl, rfl⟩
  next hop =>
    obtain rfl : op = 0x02 := BitVec.eq_of_toNat_eq hop
    cases h
    exact ⟨rfl, rfl, rfl⟩
  next hop =>
    obtain rfl : op = 0x03 := BitVec.eq_of_toNat_eq hop
    cases h
    exact ⟨rfl, rfl, rfl⟩
  next hop =>
    obtain rfl : op = 0x10 := BitVec.eq_of_toNat_eq hop
    split at h <;> cases h
    next ht => exact ⟨rfl, rfl, by rw [take8_some ht]; rfl⟩
  next hop =>
    obtain rfl : op = 0x11 := BitVec.eq_of_toNat_eq hop
    split at h <;> cases h
    next hc => exact ⟨rfl, rfl, by rw [take8_some hc]; rfl⟩
  next hop =>
    obtain rfl : op = 0x12 := BitVec.eq_of_toNat_eq hop
    split at h <;> cases h
    next hm => exact ⟨rfl, rfl, by rw [take16_some hm]; rfl⟩
  next hop =>
    obtain rfl : op = 0x13 := BitVec.eq_of_toNat_eq hop
    split at h <;> [cases h; skip]
    next hlen =>
      split at h <;> cases h
      next hval =>
        obtain ⟨rfl, hlt⟩ := sized8_of_takeBytes hlen hval
        exact ⟨by simpa [Instr.wellFormed] using hlt, rfl, rfl⟩
  next hop =>
    obtain rfl : op = 0x14 := BitVec.eq_of_toNat_eq hop
    split at h <;> [cases h; skip]
    next hnum =>
      split at h <;> [cases h; skip]
      next hlen =>
        split at h <;> cases h
        next hval =>
          obtain ⟨rfl, hlt⟩ := sized32_of_takeBytes hlen hval
          exact ⟨by simpa [Instr.wellFormed] using hlt, rfl, by rw [take32_some hnum, encode]; simp⟩
  next hop =>
    obtain rfl : op = 0x15 := BitVec.eq_of_toNat_eq hop
    split at h <;> [cases h; skip]
    next hlen =>
      split at h <;> cases h
      next hval =>
        obtain ⟨rfl, hlt⟩ := sized32_of_takeBytes hlen hval
        exact ⟨by simpa [Instr.wellFormed] using hlt, rfl, rfl⟩
  next hop =>
    obtain rfl : op = 0x20 := BitVec.eq_of_toNat_eq hop
    split at h <;> [cases h; skip]
    next hsel =>
      split at h <;> cases h
      next hidx => exact ⟨rfl, rfl, by rw [take8_some hsel, take32_some hidx]; rfl⟩
  next h1 h2 h3 h4 h5 h6 h7 h8 h9 h10 =>
    cases h
    have hop : isCommandOpcode op = false :=
      isCommandOpcode_eq_false.mpr (by simpa using ⟨h1, h2, h3, h4, h5, h6, h7, h8, h9, h10⟩)
    exact ⟨by simp [Instr.wellFormed, hop], rfl, rfl⟩

/-- Settles O2: after the opcode byte, each layout is rebuilt from the fields read. -/
theorem commandDecodingLosesNothing : Obligations.CommandDecodingLosesNothing := by
  intro bs i rest h
  cases bs with
  | nil => cases h
  | cons op bs =>
    rw [decodeCommand] at h
    split at h <;> cases h
    next hop => exact decodeOperands_some hop

/-- A command read at the port is read in the same way with more bytes behind it. -/
theorem decodeCommand_append {bs rest : Bytes} {i : Instr} (h : decodeCommand bs = .command i rest) (more : Bytes) :
    decodeCommand (bs ++ more) = .command i (rest ++ more) := by
  obtain ⟨hwf, hf, rfl⟩ := commandDecodingLosesNothing bs i rest h
  rw [List.append_assoc]
  exact decodeCommand_encode hf hwf _

/-- A proper non-empty beginning of a command's encoding ends inside the command. -/
theorem decodeCommand_take_encode {i : Instr} {k : Nat} (hf : i.format = .cmd) (hwf : i.wellFormed = true) (h0 : 0 < k)
    (hk : k < (encode i).length) : decodeCommand ((encode i).take k) = .truncated := by
  have hwhole := decodeCommand_encode hf hwf []
  rw [List.append_nil] at hwhole
  have hlen : ((encode i).take k).length = k := by rw [List.length_take]; omega
  cases hread : decodeCommand ((encode i).take k) with
  | truncated => rfl
  | empty =>
    rcases hbs : (encode i).take k with _ | ⟨op, bs⟩
    · rw [hbs, List.length_nil] at hlen; omega
    · rw [hbs, decodeCommand] at hread
      split at hread <;> cases hread
  | command j rest =>
    have hmore := decodeCommand_append hread ((encode i).drop k)
    rw [List.take_append_drop, hwhole] at hmore
    have hrest : [] = rest ++ (encode i).drop k := by injection hmore
    have hdrop : (encode i).drop k = [] := (List.append_eq_nil_iff.mp hrest.symm).2
    exact absurd (List.drop_eq_nil_iff.mp hdrop) (by omega)

/-! ## Format READ-SEL (30 R88) -/

/-- The bytes of a READ command are read as the row of their selector. -/
theorem decodeReadSel_readBytes (sel : Byte) (idx : BitVec 32) (rest : Bytes) :
    decodeReadSel (readBytes sel idx ++ rest) = some (selectRow sel idx, rest) := by
  have h : decodeCommand (readBytes sel idx ++ rest) = .command (.read sel idx) rest :=
    decodeCommand_encode (i := .read sel idx) rfl rfl rest
  rw [decodeReadSel, h]

/-- A selector above 0x0C selects the reserved row (R173). -/
theorem selectRow_reserved {sel : Byte} (h : 0x0C < sel.toNat) (idx : BitVec 32) :
    selectRow sel idx = .readReserved sel idx := by
  unfold selectRow
  split
  case h_14 => rfl
  all_goals omega

/-- The READ-SEL decoder reads back the encoding of every well-formed READ row. -/
theorem decodeReadSel_encode {i : Instr} (hf : i.format = .readSel) (hwf : i.wellFormed = true) (rest : Bytes) :
    decodeReadSel (encode i ++ rest) = some (i, rest) := by
  cases i with
  | readReserved sel idx =>
    rw [encode, decodeReadSel_readBytes, selectRow_reserved (by simpa [Instr.wellFormed] using hwf)]
  | readVer | readType | readTkl | readCode | readMid | readToken | readOptCount | readOptNum | readOptVal
  | readPayload | readStatus | readOutLen | readOut => exact decodeReadSel_readBytes _ _ rest
  | _ => cases hf

/-! ## Formats WIRE-HEADER and WIRE-DESC (30 R71, R72, R83) -/

/-- The four header bytes are read back as their fields. -/
theorem decodeHeader_encode (ver type : BitVec 2) (tkl : BitVec 4) (code : Byte) (mid : BitVec 16) (rest : Bytes) :
    decodeHeader (encode (.hdr ver type tkl code mid) ++ rest) = some (.hdr ver type tkl code mid, rest) := by
  obtain ⟨hver, htype, htkl⟩ := Machine.headerByte_fields ver type tkl
  simp only [encode, bytes16, List.cons_append, List.nil_append, decodeHeader, hver, htype, htkl,
    Machine.word16_extract]

/-- A descriptor row is one byte, in the class of that row: over the nibbles, the table of R83. -/
theorem decodeDesc_encode {i : Instr} (hf : i.format = .wireDesc) (hwf : i.wellFormed = true) :
    ∃ b, encode i = [b] ∧ decodeDesc b = i := by
  cases i with
  | sentinel | optBB | optBW | optWB | optWW => exact ⟨_, rfl, by decide⟩
  | optLL d l => exact ⟨_, rfl, by revert d l; decide⟩
  | optLB n | optLW n | optBL n | optWL n | optRD n | optRL n => exact ⟨_, rfl, by revert n; decide⟩
  | _ => cases hf

/-- Settles O1: one lemma for each of the four formats. -/
theorem encodedInstructionDecodesBack : Obligations.EncodedInstructionDecodesBack := by
  intro i rest hwf
  cases hf : i.format with
  | cmd => rw [decodeAs, decodeCommand_encode hf hwf]
  | readSel => exact decodeReadSel_encode hf hwf rest
  | wireHeader =>
    cases i with
    | hdr ver type tkl code mid => exact decodeHeader_encode ver type tkl code mid rest
    | _ => cases hf
  | wireDesc =>
    obtain ⟨b, henc, hdec⟩ := decodeDesc_encode hf hwf
    rw [henc, List.singleton_append, decodeAs, hdec]

/-- Settles O3: each clause is a row of the table of R83 at one of the 256 bytes. -/
theorem descriptorByteFallsInItsClass : Obligations.DescriptorByteFallsInItsClass := by
  unfold Obligations.DescriptorByteFallsInItsClass
  decide

/-- Settles O4: the decoders compute each word. -/
theorem wordsWrittenFromTheTablesDecode : Obligations.WordsWrittenFromTheTablesDecode :=
  ⟨rfl, rfl, rfl, rfl, rfl, rfl, rfl, rfl⟩

end Sys2Proof

namespace Sys2Proof.Machine

/-! ## A step at the port (42 R160) -/

/-- Settles O10: `step` of an idle block is the command that the decoder reads. -/
theorem stepRunsTheCommandAtThePort : Obligations.StepRunsTheCommandAtThePort := by
  intro s i rest hw h
  simp only [step, hw, h]

/-- Settles O13: a beginning of an encoding is not read as a command, since the encoding would then decode with bytes
left. -/
theorem truncatedCommandIsRefused : Obligations.TruncatedCommandIsRefused := by
  intro s hw
  refine ⟨fun i k hwf hf h0 hk hin => ?_, fun hin => ?_⟩
  · simp only [step, hw, hin, decodeCommand_take_encode hf hwf h0 hk]
  · simp only [step, hw, hin, decodeCommand]

end Sys2Proof.Machine
end

section
/-! The wire rows as units of a DECODE in progress (log 5): the header, the sentinel and the option entries, each with the
errors it reports, and the run of the units against the atomic DECODE. -/

namespace Sys2Proof.Machine

/-! ## How a unit ends -/

theorem inDecode_of_ok {s s' : State} {w : DecodeWork} {st : Stage} {f : DecodeWork → Except Err State}
    (hw : s.work = .decoding w) (hst : w.stage = st) (h : f w = .ok s') : inDecode s st f = .next s' := by
  rw [inDecode_at hw hst, h]

theorem inDecode_of_error {s : State} {w : DecodeWork} {st : Stage} {f : DecodeWork → Except Err State} {e : Err}
    (hw : s.work = .decoding w) (hst : w.stage = st) (h : f w = .error e) :
    inDecode s st f = .next (State.afterError { s with work := .idle } e) := by
  rw [inDecode_at hw hst, h]

/-! ## The header unit (40 R100 to R103) -/

theorem hdrCheck_short {n : Nat} (hn : n < 4) (ver : BitVec 2) (h : Header) :
    hdrCheck n ver h = .error .bufferTooShort := if_pos hn

theorem hdrCheck_version {n : Nat} (hn : 4 ≤ n) {ver : BitVec 2} (hv : ver ≠ 1) (h : Header) :
    hdrCheck n ver h = .error .unsupportedVersion :=
  (if_neg (by omega)).trans (if_pos hv)

theorem hdrCheck_tokenLength {n : Nat} (hn : 4 ≤ n) {h : Header} (h8 : 8 < h.tkl.toNat) :
    hdrCheck n 1 h = .error .invalidTokenLength :=
  ((if_neg (by omega)).trans (if_neg (by simp))).trans (if_pos h8)

theorem hdrCheck_ok {n : Nat} (hn : 4 ≤ n) {h : Header} (h8 : h.tkl.toNat ≤ 8) : hdrCheck n 1 h = .ok h :=
  ((if_neg (by omega)).trans (if_neg (by simp))).trans (if_neg (by omega))

/-- The checks give back the header they pass. -/
theorem hdrCheck_eq_of_ok {n : Nat} {ver : BitVec 2} {h h' : Header} (hc : hdrCheck n ver h = .ok h') : h' = h := by
  rcases hdrCheck_cases n ver h with ⟨-, hr⟩ | ⟨-, -, hr⟩ | ⟨-, -, -, hr⟩ | ⟨-, -, -, hr⟩ <;> rw [hr] at hc <;> cases hc
  rfl

theorem tokenExtract_truncated {buf : Bytes} {tkl : Nat} (h : buf.length - 4 < tkl) :
    tokenExtract buf tkl = .error .truncatedToken := if_pos h

theorem tokenExtract_ok {buf : Bytes} {tkl : Nat} (h : tkl ≤ buf.length - 4) :
    tokenExtract buf tkl = .ok ((buf.drop 4).take tkl, 4 + tkl) := if_neg (by omega)

/-- The working variables of a DECODE after its header `h` and the token (R35, 40 R103). -/
def DecodeWork.afterHeader (w : DecodeWork) (h : Header) : DecodeWork :=
  { w with
    pos := 4 + h.tkl.toNat
    stage := .options
    msg := { w.msg with type := h.type, code := h.code, mid := h.mid, token := (w.inBuf.drop 4).take h.tkl.toNat } }

section
variable {s : State} {w : DecodeWork} {ver type : BitVec 2} {tkl : BitVec 4} {code : Byte} {mid : BitVec 16}

theorem exec_hdr_of_check_error {e : Err} (hw : s.work = .decoding w) (hst : w.stage = .header)
    (h : hdrCheck w.inBuf.length ver ⟨type, tkl, code, mid⟩ = .error e) :
    exec (.hdr ver type tkl code mid) s = .next (State.afterError { s with work := .idle } e) :=
  inDecode_of_error hw hst (by simp only [h, bind, Except.bind])

theorem exec_hdr_of_token_error {e : Err} (hw : s.work = .decoding w) (hst : w.stage = .header)
    (h : hdrCheck w.inBuf.length ver ⟨type, tkl, code, mid⟩ = .ok ⟨type, tkl, code, mid⟩)
    (ht : tokenExtract w.inBuf tkl.toNat = .error e) :
    exec (.hdr ver type tkl code mid) s = .next (State.afterError { s with work := .idle } e) :=
  inDecode_of_error hw hst (by simp only [h, ht, bind, Except.bind])

theorem exec_hdr_of_ok (hw : s.work = .decoding w) (hst : w.stage = .header)
    (h : hdrCheck w.inBuf.length ver ⟨type, tkl, code, mid⟩ = .ok ⟨type, tkl, code, mid⟩)
    (ht : tkl.toNat ≤ w.inBuf.length - 4) :
    exec (.hdr ver type tkl code mid) s =
      .next { s with work := .decoding (w.afterHeader ⟨type, tkl, code, mid⟩) } :=
  inDecode_of_ok hw hst (by simp only [h, tokenExtract_ok ht, bind, Except.bind, DecodeWork.afterHeader])

end

/-- Settles O37: the three checks of the header, then the token's, then the fields. -/
theorem headerUnitParsesHeaderAndToken : Obligations.HeaderUnitParsesHeaderAndToken := by
  intro s w ver type tkl code mid hw hst
  refine ⟨fun h4 => ?_, fun h4 hver => ?_, ?_, ?_, ?_⟩
  · exact exec_hdr_of_check_error hw hst (hdrCheck_short h4 ..)
  · exact exec_hdr_of_check_error hw hst (hdrCheck_version h4 hver _)
  · rintro h4 rfl h8
    exact exec_hdr_of_check_error hw hst (hdrCheck_tokenLength h4 h8)
  · rintro h4 rfl h8 hlen
    exact exec_hdr_of_token_error hw hst (hdrCheck_ok h4 h8) (tokenExtract_truncated (by omega))
  · rintro rfl h8 hlen
    exact exec_hdr_of_ok hw hst (hdrCheck_ok (by omega) h8) (by omega)

/-! ## The sentinel (41 R125) -/

/-- The bytes from an offset to the end of the buffer. -/
theorem memRead_to_end (buf : Bytes) (pos : Nat) : memRead buf (pos + 1) (buf.length - pos - 1) = buf.drop (pos + 1) :=
  List.take_of_length_le (by rw [List.length_drop]; omega)

theorem exec_sentinel {s : State} {w : DecodeWork} (hat : AtDescriptor s w) :
    exec .sentinel s = .next (s.commitDecode { w.msg with payload := w.inBuf.drop (w.pos + 1) }) := by
  rw [exec, execSentinel, inDecode_of_ok hat.1 hat.2 rfl, memRead_to_end]

/-- Settles O38: the bytes after the sentinel are those the unit reads. -/
theorem sentinelUnitCommitsThePayload : Obligations.SentinelUnitCommitsThePayload := by
  intro s w p hat hdrop
  have hp : w.inBuf.drop (w.pos + 1) = p := drop_add_of_drop_eq (a := [0xFF]) hdrop
  rw [exec_sentinel hat, hp]
  rfl

/-! ## One option entry (41 R126 to R129) -/

/-- An entry whose delta and length are resolved: the value's bytes, then the number's range (R127). -/
theorem entryBody_of_resolved {delta len : Resolver} {buf : Bytes} {pos d pos1 l pos2 : Nat}
    (hd : delta buf pos = .ok (d, pos1)) (hl : len buf pos1 = .ok (l, pos2)) (num : BitVec 32) :
    entryBody delta len buf pos num =
      if buf.length - pos2 < l then .error .truncatedOption
      else if num.toNat + d > 0xFFFFFFFF then .error .numberOverflow
      else .ok (⟨BitVec.ofNat 32 (num.toNat + d), memRead buf pos2 l⟩, pos2 + l, BitVec.ofNat 32 (num.toNat + d)) := by
  simp only [entryBody, hd, hl, bind, Except.bind]

/-- The working variables of a DECODE after an entry that gave this option, cursor and running number (41 R129). -/
def DecodeWork.afterOption (w : DecodeWork) (rec : Opt) (pos : Nat) (num : BitVec 32) : DecodeWork :=
  { w with pos, num, msg := { w.msg with opts := w.msg.opts ++ [rec] } }

section
variable {s : State} {w : DecodeWork} {delta len : Resolver}

theorem entryUnit_of_error {e : Err} (hat : AtDescriptor s w)
    (h : entryBody delta len w.inBuf (w.pos + 1) w.num = .error e) :
    entryUnit delta len s = .next (State.afterError { s with work := .idle } e) :=
  inDecode_of_error hat.1 hat.2 (by simp only [h, bind, Except.bind])

theorem entryUnit_of_full {rec : Opt} {pos : Nat} {num : BitVec 32} (hat : AtDescriptor s w)
    (h : entryBody delta len w.inBuf (w.pos + 1) w.num = .ok (rec, pos, num))
    (hfull : s.cfg.optMax = some w.msg.opts.length) :
    entryUnit delta len s = .next (State.afterError { s with work := .idle } .capacityExceeded) :=
  inDecode_of_error hat.1 hat.2 (by simp only [h, appendOpt, if_pos hfull, bind, Except.bind])

theorem entryUnit_of_ok {rec : Opt} {pos : Nat} {num : BitVec 32} (hat : AtDescriptor s w)
    (h : entryBody delta len w.inBuf (w.pos + 1) w.num = .ok (rec, pos, num))
    (hroom : s.cfg.optMax ≠ some w.msg.opts.length) :
    entryUnit delta len s = .next { s with work := .decoding (w.afterOption rec pos num) } :=
  inDecode_of_ok hat.1 hat.2 (by simp only [h, appendOpt, if_neg hroom, bind, Except.bind, DecodeWork.afterOption])

end

/-- Wherever the bytes `x` stand at the cursor, the resolver gives `v` and moves the cursor past them. -/
def Resolver.Reads (r : Resolver) (x : Bytes) (v : Nat) : Prop :=
  ∀ {buf : Bytes} {pos : Nat} {rest : Bytes}, buf.drop pos = x ++ rest → r buf pos = .ok (v, pos + x.length)

theorem resolveL_reads (v : BitVec 4) : (resolveL v).Reads [] v.toNat := fun _ => rfl

theorem resolveB_reads (e : Byte) : resolveB.Reads [e] (13 + e.toNat) := extResolve_of_extForm (.byte e)

theorem resolveW_reads (e f : Byte) : resolveW.Reads [e, f] (269 + (e.toNat * 256 + f.toNat)) :=
  extResolve_of_extForm (.word e f)

/-- A descriptor whose two extensions and value stand behind it appends its option and moves the cursor past them. -/
theorem entryUnit_of_reads {s : State} {w : DecodeWork} {delta len : Resolver} {d l : Nat} {dx lx val rest : Bytes}
    (hd : delta.Reads dx d) (hl : len.Reads lx l) (hval : val.length = l)
    (hat : AtEntry s w d (dx ++ (lx ++ (val ++ rest)))) :
    entryUnit delta len s = .next (s.afterEntry w d (dx.length + lx.length) val) := by
  obtain ⟨hdesc, hdrop, hnum, hroom⟩ := hat
  subst hval
  have hdrop1 := drop_add_of_drop_eq hdrop
  have hdrop2 := drop_add_of_drop_eq hdrop1
  have hlen := congrArg List.length hdrop2
  rw [List.length_drop, List.length_append] at hlen
  have hbody := entryBody_of_resolved (hd hdrop) (hl hdrop1) w.num
  rw [if_neg (by omega), if_neg (by omega), memRead, hdrop2, List.take_left] at hbody
  rw [entryUnit_of_ok hdesc hbody hroom, Nat.add_assoc (w.pos + 1)]
  rfl

/-- Settles O39: the two resolvers of each row read the extension bytes of its two classes. -/
theorem optionRowsAppendTheirEntry : Obligations.OptionRowsAppendTheirEntry := by
  intro s w val rest
  exact ⟨fun d l hv hat => entryUnit_of_reads (resolveL_reads d) (resolveL_reads l) hv hat,
    fun d e hv hat => entryUnit_of_reads (resolveL_reads d) (resolveB_reads e) hv hat,
    fun d e f hv hat => entryUnit_of_reads (resolveL_reads d) (resolveW_reads e f) hv hat,
    fun l a hv hat => entryUnit_of_reads (resolveB_reads a) (resolveL_reads l) hv hat,
    fun a e hv hat => entryUnit_of_reads (resolveB_reads a) (resolveB_reads e) hv hat,
    fun a e f hv hat => entryUnit_of_reads (resolveB_reads a) (resolveW_reads e f) hv hat,
    fun l a c hv hat => entryUnit_of_reads (resolveW_reads a c) (resolveL_reads l) hv hat,
    fun a c e hv hat => entryUnit_of_reads (resolveW_reads a c) (resolveB_reads e) hv hat,
    fun a c e f hv hat => entryUnit_of_reads (resolveW_reads a c) (resolveW_reads e f) hv hat⟩

/-- Settles O40: OPT.RD fails in resolving the delta, OPT.RL in resolving the length after it. -/
theorem reservedDescriptorRowsRejectTheEntry : Obligations.ReservedDescriptorRowsRejectTheEntry := by
  intro s w hat
  refine ⟨fun l => ?_, fun d dx rest delta hd hdrop => ?_⟩
  · exact entryUnit_of_error (delta := resolveR) (len := extResolve l) hat (entryBody_of_delta_error rfl _)
  · exact entryUnit_of_error (len := resolveR) hat (entryBody_of_len_error (extResolve_of_extForm hd hdrop) rfl _)

/-- Every descriptor but the sentinel is an option entry with its two nibbles resolved by their classes (30 R83). -/
theorem exec_decodeDesc {b : Byte} (hb : b ≠ 0xFF) (s : State) :
    exec (decodeDesc b) s = entryUnit (extResolve (hiNibble b)) (extResolve (loNibble b)) s := by
  rw [decodeDesc, if_neg hb]
  cases hhi : nibbleClass (hiNibble b) <;> cases hlo : nibbleClass (loNibble b) <;>
    simp only [exec, execOptLL, execOptLB, execOptLW, execOptBL, execOptBB, execOptBW, execOptWL, execOptWB, execOptWW,
      execOptRD, execOptRL, extResolve, hhi, hlo]

/-- Settles O41: the descriptor is an entry, and each clause is the first of its checks that fails. -/
theorem entryReportsItsFirstError : Obligations.EntryReportsItsFirstError := by
  intro s w dn ln hat hne i ends
  have hdesc : ofNibbles dn ln ≠ 0xFF := fun h => hne
    ⟨(hiNibble_ofNibbles dn ln).symm.trans (congrArg hiNibble h), (loNibble_ofNibbles dn ln).symm.trans
      (congrArg loNibble h)⟩
  have hexec := exec_decodeDesc hdesc s
  rw [hiNibble_ofNibbles, loNibble_ofNibbles] at hexec
  have hends {e : Err} (h : entryBody (extResolve dn) (extResolve ln) w.inBuf (w.pos + 1) w.num = .error e) : ends e :=
    hexec.trans (entryUnit_of_error hat h)
  refine ⟨?_, ?_, ?_, fun dx r delta hd hdrop => ?_⟩
  · rintro rfl
    exact hends (entryBody_of_delta_error rfl _)
  · rintro rfl hlen
    exact hends (entryBody_of_delta_error (resolveB_truncated (by omega)) _)
  · rintro rfl hlen
    exact hends (entryBody_of_delta_error (resolveW_truncated (by omega)) _)
  have hdelta := extResolve_of_extForm hd hdrop
  have hdrop1 := drop_add_of_drop_eq hdrop
  have hr : w.inBuf.length - (w.pos + 1 + dx.length) = r.length := by rw [← List.length_drop, hdrop1]
  refine ⟨?_, ?_, ?_, ?_⟩
  · rintro rfl
    exact hends (entryBody_of_len_error hdelta rfl _)
  · rintro rfl hlen
    exact hends (entryBody_of_len_error hdelta (resolveB_truncated (by omega)) _)
  · rintro rfl hlen
    exact hends (entryBody_of_len_error hdelta (resolveW_truncated (by omega)) _)
  · rintro lx v len hl rfl
    have hbody := entryBody_of_resolved hdelta (extResolve_of_extForm hl hdrop1) w.num
    rw [← List.length_drop, drop_add_of_drop_eq hdrop1] at hbody
    refine ⟨fun hv => ?_, fun hv hover => ?_, fun hv hnum hfull => ?_⟩
    · exact hends (hbody.trans (if_pos hv))
    · exact hends (hbody.trans ((if_neg (by omega)).trans (if_pos hover)))
    · rw [if_neg (by omega), if_neg (by omega)] at hbody
      exact hexec.trans (entryUnit_of_full hat hbody hfull)

/-! ## A step of a DECODE in progress (log 5) -/

theorem decodeHeader_short {b : Bytes} (h : b.length < 4) : decodeHeader b = none := by
  match b with
  | [] | [_] | [_, _] | [_, _, _] => rfl
  | _ :: _ :: _ :: _ :: _ => simp at h; omega

theorem decodeHeader_some {b : Bytes} (h : 4 ≤ b.length) :
    ∃ ver type tkl code mid rest, decodeHeader b = some (.hdr ver type tkl code mid, rest) := by
  match b with
  | [] | [_] | [_, _] | [_, _, _] => simp at h
  | _ :: _ :: _ :: _ :: _ => exact ⟨_, _, _, _, _, _, rfl⟩

theorem step_of_header {s : State} {w : DecodeWork} {i : Instr} {rest : Bytes} (hw : s.work = .decoding w)
    (hst : w.stage = .header) (h : decodeHeader w.inBuf = some (i, rest)) : step s = exec i s := by
  simp only [step, hw, wireFetch, hst, h]

theorem step_of_short_header {s : State} {w : DecodeWork} (hw : s.work = .decoding w) (hst : w.stage = .header)
    (h : w.inBuf.length < 4) : step s = .next (State.afterError { s with work := .idle } .bufferTooShort) := by
  simp only [step, hw, wireFetch, hst, decodeHeader_short h, State.failDecode_eq]

theorem step_of_desc {s : State} {w : DecodeWork} {b : Byte} (hat : AtDescriptor s w) (h : w.inBuf[w.pos]? = some b) :
    step s = exec (decodeDesc b) s := by
  simp only [step, hat.1, wireFetch, hat.2, h]

theorem step_of_end {s : State} {w : DecodeWork} (hat : AtDescriptor s w) (h : w.inBuf.length ≤ w.pos) :
    step s = .next (s.commitDecode w.msg) := by
  simp only [step, hat.1, wireFetch, hat.2, List.getElem?_eq_none h]

/-- Settles O11: `step` meets the unit that the decoders of the wire formats read. -/
theorem stepRunsTheWireUnitAtTheCursor : Obligations.StepRunsTheWireUnitAtTheCursor := by
  intro s w hw
  exact ⟨fun i rest hst h => step_of_header hw hst h, fun b hst h => step_of_desc ⟨hw, hst⟩ h⟩

/-- Settles O12: `step` meets no unit in a buffer too short for one. -/
theorem decodeInProgressEndsWithTheBuffer : Obligations.DecodeInProgressEndsWithTheBuffer := by
  intro s w hw
  exact ⟨fun hst h => step_of_short_header hw hst h, fun hst h => step_of_end ⟨hw, hst⟩ h.ge⟩

/-! ## One turn of the option loop (41 R129) -/

theorem optSeqDecode_at_end {cfg : Config} {buf : Bytes} {pos : Nat} (h : pos = buf.length) (turns : Nat)
    (num : BitVec 32) (opts : List Opt) : optSeqDecode cfg turns buf pos num opts = .ok (opts, []) := by
  cases turns with
  | zero => rfl
  | succ turns => rw [optSeqDecode, if_pos h]

theorem optSeqDecode_at_sentinel {cfg : Config} {buf r : Bytes} {pos : Nat} (h : buf.drop pos = 0xFF :: r) (turns : Nat)
    (num : BitVec 32) (opts : List Opt) :
    optSeqDecode cfg (turns + 1) buf pos num opts = .ok (opts, buf.drop (pos + 1)) := by
  have hlen := congrArg List.length h
  rw [List.length_drop, List.length_cons] at hlen
  rw [optSeqDecode, if_neg (by omega), memReadU_one buf pos _ r h, if_pos (by rfl), memRead_to_end]

/-- At a descriptor that is not the sentinel, a turn whose entry is decoded is the capacity check and the next turn. -/
theorem optSeqDecode_at_entry {cfg : Config} {buf r : Bytes} {pos pos' : Nat} {b : Byte} {num num' : BitVec 32}
    {rec : Opt} (h : buf.drop pos = b :: r) (hb : b ≠ 0xFF)
    (hok : entryBody (extResolve (hiNibble b)) (extResolve (loNibble b)) buf (pos + 1) num = .ok (rec, pos', num'))
    (turns : Nat) (opts : List Opt) :
    optSeqDecode cfg (turns + 1) buf pos num opts =
      (appendOpt cfg opts rec).bind fun opts => optSeqDecode cfg turns buf pos' num' opts := by
  have hlen := congrArg List.length h
  rw [List.length_drop, List.length_cons] at hlen
  have hne : memReadU buf pos 1 ≠ 0xFF := by
    rw [memReadU_one buf pos b r h]
    exact fun h => hb (BitVec.eq_of_toNat_eq h)
  rw [optSeqDecode, if_neg (by omega), if_neg hne, optEntryDecode_eq h, hok]
  rfl

/-- An entry that is decoded moves the cursor forward, inside the buffer. -/
theorem entryBody_cursor {dn ln : BitVec 4} {buf : Bytes} {pos pos' : Nat} {num num' : BitVec 32} {rec : Opt}
    (hp : pos ≤ buf.length)
    (h : entryBody (extResolve dn) (extResolve ln) buf pos num = .ok (rec, pos', num')) :
    pos ≤ pos' ∧ pos' ≤ buf.length := by
  rcases entryBody_cases dn ln buf pos num with ⟨dx, lx, val, rest, delta, -, -, hbytes, -, hok⟩ | ⟨e, -, herr⟩
  · rw [hok] at h
    cases h
    have hlen := congrArg List.length hbytes
    simp only [List.length_drop, List.length_append] at hlen
    omega
  · rw [herr] at h
    cases h

/-! ## The run of the units against the atomic DECODE -/

/-- Some number of steps, at most `n`, lead from `s` to `t`. -/
def ReachesIn (n : Nat) (s t : State) : Prop := ∃ k, k ≤ n ∧ Host.Core.run core k s = .next t

theorem run_of_step {s t : State} (h : step s = .next t) (k : Nat) :
    Host.Core.run core (k + 1) s = Host.Core.run core k t := by
  have hcore : core.step s = .next t := h
  simp only [Host.Core.run, hcore]

theorem ReachesIn.of_step {n : Nat} {s t : State} (h : step s = .next t) : ReachesIn (n + 1) s t :=
  ⟨1, by omega, run_of_step h 0⟩

theorem ReachesIn.mono {m n : Nat} {s t : State} (h : ReachesIn m s t) (hmn : m ≤ n) : ReachesIn n s t := by
  obtain ⟨k, hk, hrun⟩ := h
  exact ⟨k, hk.trans hmn, hrun⟩

theorem ReachesIn.step_then {n : Nat} {s s' t : State} (h : step s = .next s') (hr : ReachesIn n s' t) :
    ReachesIn (n + 1) s t := by
  obtain ⟨k, hk, hrun⟩ := hr
  exact ⟨k + 1, by omega, (run_of_step h k).trans hrun⟩

/-- How a DECODE whose message is `m` up to its options ends with what the option loop gives: a commit or an error. -/
def State.endDecode (s : State) (m : Message) : Except Err (List Opt × Bytes) → State
  | .ok (opts, payload) => s.commitDecode { m with opts, payload }
  | .error e => State.afterError { s with work := .idle } e

/-- An entry already appended does not show in how the DECODE ends: the option loop gives all options. -/
theorem endDecode_afterOption (s : State) (w : DecodeWork) (rec : Opt) (pos : Nat) (num : BitVec 32) (work : Work)
    (r : Except Err (List Opt × Bytes)) :
    State.endDecode { s with work := work } (w.afterOption rec pos num).msg r = s.endDecode w.msg r := by
  cases r <;> rfl

/-- From a descriptor position, the units run to the end of the DECODE that the option loop gives, a step for each turn and
one for the end of the buffer. -/
theorem reachesIn_endDecode (turns : Nat) : ∀ {s : State} {w : DecodeWork}, AtDescriptor s w → w.msg.payload = [] →
    w.inBuf.length - w.pos ≤ turns → w.pos ≤ w.inBuf.length →
    ReachesIn (turns + 1) s
      (s.endDecode w.msg (optSeqDecode s.cfg turns w.inBuf w.pos w.num w.msg.opts)) := by
  have atEnd {s : State} {w : DecodeWork} {turns : Nat} (hat : AtDescriptor s w) (hpay : w.msg.payload = [])
      (hend : w.pos = w.inBuf.length) : ReachesIn (turns + 1) s
        (s.endDecode w.msg (optSeqDecode s.cfg turns w.inBuf w.pos w.num w.msg.opts)) := by
    rw [optSeqDecode_at_end hend, State.endDecode, ← hpay]
    exact .of_step (step_of_end hat hend.ge)
  induction turns with
  | zero => exact fun hat hpay ht hp => atEnd hat hpay (by omega)
  | succ turns ih =>
    intro s w hat hpay ht hp
    rcases hdrop : w.inBuf.drop w.pos with _ | ⟨b, r⟩
    · exact atEnd hat hpay (Nat.le_antisymm hp (List.drop_eq_nil_iff.mp hdrop))
    have hget : w.inBuf[w.pos]? = some b := by
      rw [← Nat.add_zero w.pos, ← List.getElem?_drop, hdrop, List.getElem?_cons_zero]
    have hstep := step_of_desc hat hget
    by_cases hb : b = 0xFF
    · subst hb
      rw [optSeqDecode_at_sentinel hdrop]
      exact .of_step (hstep.trans (exec_sentinel hat))
    rw [exec_decodeDesc hb] at hstep
    rcases hbody : entryBody (extResolve (hiNibble b)) (extResolve (loNibble b)) w.inBuf (w.pos + 1) w.num with
      e | ⟨rec, pos, num⟩
    · rw [optSeqDecode_of_entry_error ht hdrop hb hbody]
      exact .of_step (hstep.trans (entryUnit_of_error hat hbody))
    have hlen := congrArg List.length hdrop
    rw [List.length_drop, List.length_cons] at hlen
    obtain ⟨hpos, hposLe⟩ := entryBody_cursor (by omega) hbody
    rw [optSeqDecode_at_entry hdrop hb hbody]
    rcases appendOpt_cases s.cfg w.msg.opts rec with ⟨hfull, happ⟩ | ⟨hroom, happ⟩
    · rw [happ]
      exact .of_step (hstep.trans (entryUnit_of_full hat hbody hfull))
    · rw [entryUnit_of_ok hat hbody hroom] at hstep
      have hrest := ih (s := { s with work := .decoding (w.afterOption rec pos num) })
        (w := w.afterOption rec pos num) ⟨rfl, hat.2⟩ hpay (by show w.inBuf.length - pos ≤ turns; omega) hposLe
      rw [endDecode_afterOption] at hrest
      rw [happ]
      exact .step_then hstep hrest

/-- DECODE's computation fails with the error of HDR_PARSE (42 R161). -/
theorem decodeMessage_of_header_error {cfg : Config} {b : Bytes} {e : Err} (hmsg : fits cfg.msgMax b.length = true)
    (hh : hdrParse b = .error e) : decodeMessage cfg b = .error e := by
  rw [decodeMessage, if_neg (ne_of_eq_of_ne hmsg (by decide)), hh]
  rfl

/-- DECODE's computation fails where the token is cut short (40 R103). -/
theorem decodeMessage_of_token_error {cfg : Config} {b : Bytes} {h : Header} (hmsg : fits cfg.msgMax b.length = true)
    (hh : hdrParse b = .ok h) (ht : b.length - 4 < h.tkl.toNat) : decodeMessage cfg b = .error .truncatedToken := by
  rw [decodeMessage, if_neg (ne_of_eq_of_ne hmsg (by decide)), hh]
  simp only [bind, Except.bind, tokenExtract_truncated ht]

theorem hdrParse_short {b : Bytes} (h : b.length < 4) : hdrParse b = .error .bufferTooShort := by
  simp only [hdrParse, decodeHeader_short h]

theorem State.idle_eta {s : State} (hw : s.work = .idle) : ({ s with work := .idle } : State) = s := by rw [← hw]

/-- DECODE of an operand with a header and a token ends as the option loop after them does. -/
theorem exec_decode_of_token {s : State} {b : Bytes} {h : Header} (hw : s.work = .idle)
    (hmsg : fits s.cfg.msgMax b.length = true) (hh : hdrParse b = .ok h) (ht : h.tkl.toNat ≤ b.length - 4) :
    exec (.decode b) s = .next (s.endDecode ((DecodeWork.start b).afterHeader h).msg
      (optSeqDecode s.cfg (b.length - (4 + h.tkl.toNat)) b (4 + h.tkl.toNat) 0 [])) := by
  have hdec : decodeMessage s.cfg b =
      (optSeqDecode s.cfg (b.length - (4 + h.tkl.toNat)) b (4 + h.tkl.toNat) 0 []).map fun r =>
        { ((DecodeWork.start b).afterHeader h).msg with opts := r.1, payload := r.2 } := by
    rw [decodeMessage, if_neg (ne_of_eq_of_ne hmsg (by decide))]
    simp only [hh, tokenExtract_ok ht, bind, Except.bind]
    split
    next hend => rw [optSeqDecode_at_end hend]; rfl
    next => rcases optSeqDecode s.cfg _ b _ 0 [] with e | r <;> rfl
  rcases hseq : optSeqDecode s.cfg (b.length - (4 + h.tkl.toNat)) b (4 + h.tkl.toNat) 0 [] with e | ⟨opts, payload⟩
  · rw [exec_decode_of_error hw (by rw [hdec, hseq]; rfl), State.endDecode, State.idle_eta hw]
  · rw [exec_decode_of_ok hw (by rw [hdec, hseq]; rfl), State.endDecode, State.commitDecode_eq, ← hw]

/-- A DECODE that its first unit ends with an error is the atomic one with that error. -/
theorem reachesIn_of_error {s : State} {b : Bytes} {e : Err} (hw : s.work = .idle)
    (hstep : step (s.beginDecode b) = .next (State.afterError { s.beginDecode b with work := .idle } e))
    (hdec : decodeMessage s.cfg b = .error e) :
    ∃ t, exec (.decode b) s = .next t ∧ ReachesIn (b.length + 1) (s.beginDecode b) t := by
  refine ⟨_, exec_decode_of_error hw hdec, .of_step ?_⟩
  rw [hstep, ← State.idle_eta hw]
  rfl

/-- The units of a DECODE, from its start, lead to the next state of the atomic command. -/
theorem beginDecode_reaches {s : State} {b : Bytes} (hw : s.work = .idle) (hmsg : fits s.cfg.msgMax b.length = true) :
    ∃ t, exec (.decode b) s = .next t ∧ ReachesIn (b.length + 1) (s.beginDecode b) t := by
  have hbegin : (s.beginDecode b).work = .decoding (DecodeWork.start b) := rfl
  by_cases h4 : b.length < 4
  · exact reachesIn_of_error hw (step_of_short_header hbegin rfl h4)
      (decodeMessage_of_header_error hmsg (hdrParse_short h4))
  obtain ⟨ver, type, tkl, code, mid, rest, hhdr⟩ := decodeHeader_some (Nat.le_of_not_lt h4)
  have hstep := step_of_header hbegin rfl hhdr
  have hparse : hdrParse b = hdrCheck b.length ver ⟨type, tkl, code, mid⟩ := by simp only [hdrParse, hhdr]
  rcases hc : hdrCheck b.length ver ⟨type, tkl, code, mid⟩ with e | h
  · exact reachesIn_of_error hw (hstep.trans (exec_hdr_of_check_error hbegin rfl hc))
      (decodeMessage_of_header_error hmsg (hparse.trans hc))
  obtain rfl : h = ⟨type, tkl, code, mid⟩ := hdrCheck_eq_of_ok hc
  by_cases ht : tkl.toNat ≤ b.length - 4
  · rw [exec_hdr_of_ok hbegin rfl hc ht] at hstep
    refine ⟨_, exec_decode_of_token hw hmsg (hparse.trans hc) ht, ?_⟩
    have hrun := reachesIn_endDecode (b.length - (4 + tkl.toNat))
      (s := { s.beginDecode b with work := .decoding ((DecodeWork.start b).afterHeader ⟨type, tkl, code, mid⟩) })
      ⟨rfl, rfl⟩ rfl (Nat.le_refl _) (by show 4 + tkl.toNat ≤ b.length; omega)
    exact (ReachesIn.step_then hstep hrun).mono (by omega)
  · have hshort := Nat.lt_of_not_le ht
    exact reachesIn_of_error hw
      (hstep.trans (exec_hdr_of_token_error hbegin rfl hc (tokenExtract_truncated hshort)))
      (decodeMessage_of_token_error hmsg (hparse.trans hc) hshort)

/-- Settles O42: the header's step ends the DECODE with the error of HDR_PARSE or TOKEN_EXTRACT, or leaves it at the first
descriptor position, from where the units take it to its end. -/
theorem unitStepsRefineTheAtomicDecode : Obligations.UnitStepsRefineTheAtomicDecode := by
  intro s b hw hmsg
  obtain ⟨t, hexec, k, hk, hrun⟩ := beginDecode_reaches hw hmsg
  exact ⟨k, hk, hrun.trans hexec.symm⟩

/-! ## What a unit shows (20 R58) -/

/-- Settles O43: of the three things a unit can do, an advance changes only the working variables, and a commit and an
error end the DECODE. -/
theorem wireUnitsShowNothingUntilTheDecodeEnds : Obligations.WireUnitsShowNothingUntilTheDecodeEnds := by
  intro i s t hf h
  obtain ⟨w, -, ⟨w', -, rfl⟩ | ⟨-, rfl⟩ | ⟨e, rfl⟩⟩ := unit_next hf h
  · exact .inl ⟨w', rfl⟩
  · exact .inr ⟨rfl, rfl, rfl, rfl, none, rfl, fun hne => absurd rfl hne⟩
  · exact .inr ⟨rfl, rfl, rfl, rfl, some e, rfl, fun _ => rfl⟩

end Sys2Proof.Machine
end

section
/-! The invariant of the block (10 R27 to R34): reset meets it, and every step keeps it. -/

namespace Sys2Proof.Machine

/-! ## What a step can do (42 R160, log 5) -/

theorem decodeDesc_format (b : Byte) : (decodeDesc b).format = .wireDesc := by revert b; decide

/-- Everything the next state of an idle block's step can be: that of the command at the port, its bytes taken. -/
theorem step_next_of_idle {s t : State} (hw : s.work = .idle) (h : step s = .next t) :
    ∃ i rest, decodeCommand s.input = .command i rest ∧ i.format = .cmd ∧ exec i { s with input := rest } = .next t := by
  cases hport : decodeCommand s.input with
  | command i rest =>
    obtain ⟨-, hf, -⟩ := commandDecodingLosesNothing _ _ _ hport
    rw [stepRunsTheCommandAtThePort s i rest hw hport] at h
    exact ⟨i, rest, rfl, hf, h⟩
  | empty | truncated => simp [step, hw, hport] at h

/-- Everything the next state of a step in mid-DECODE can be: that of the unit at the cursor, which stands before the end of
the buffer, or the end of the DECODE. -/
theorem step_next_of_decoding {s t : State} {w : DecodeWork} (hw : s.work = .decoding w) (h : step s = .next t) :
    (∃ i, (i.format = .wireHeader ∨ i.format = .wireDesc) ∧ (w.stage = .options → w.pos < w.inBuf.length) ∧
      exec i s = .next t) ∨
    (∃ e, t = State.afterError { s with work := .idle } e) ∨ (w.stage = .options ∧ t = s.commitDecode w.msg) := by
  cases hst : w.stage with
  | header =>
    by_cases h4 : w.inBuf.length < 4
    · rw [step_of_short_header hw hst h4] at h
      cases h
      exact .inr (.inl ⟨_, rfl⟩)
    · obtain ⟨ver, type, tkl, code, mid, rest, hhdr⟩ := decodeHeader_some (Nat.le_of_not_lt h4)
      rw [step_of_header hw hst hhdr] at h
      exact .inl ⟨_, .inl rfl, nofun, h⟩
  | options =>
    by_cases hpos : w.pos < w.inBuf.length
    · rw [step_of_desc ⟨hw, hst⟩ (List.getElem?_eq_getElem hpos)] at h
      exact .inl ⟨_, .inr (decodeDesc_format _), fun _ => hpos, h⟩
    · rw [step_of_end ⟨hw, hst⟩ (Nat.le_of_not_lt hpos)] at h
      cases h
      exact .inr (.inr ⟨rfl, rfl⟩)

/-! ## The capacities (00 R6, 10 R30) -/

theorem fits_zero (b : Option Nat) : fits b 0 = true := by cases b <;> simp [fits]

/-- What keeps `MSG_MAX` keeps `STORE_MAX`. -/
theorem fits_storeMax {c : Config} (hc : c.wf = true) {n : Nat} (h : fits c.msgMax n = true) :
    fits c.storeMax n = true := by
  obtain ⟨msgMax, optMax, storeMax⟩ := c
  cases storeMax with
  | none => rfl
  | some t =>
    cases msgMax with
    | none => simp [Config.wf] at hc
    | some m => simp [Config.wf, fits] at hc h ⊢; omega

/-- The values and the payload of a message on the wire are among its bytes. -/
theorem MessageForm.store_le {m : Message} {b : Bytes} (h : MessageForm m b) :
    valueBytes m.opts + m.payload.length ≤ b.length := by
  rcases h with ⟨hp, -, body, hent, rfl⟩ | ⟨-, body, hent, rfl⟩
  all_goals
    have hval := hent.representable.2.2
    simp only [List.length_append, List.length_cons]
  · rw [hp, List.length_nil]
    omega
  · omega

/-! ## Messages -/

theorem Message.default_wf (c : Config) : Message.default.Wf c :=
  ⟨by decide, .nil, fits_zero _, fits_zero _⟩

/-- A message on the wire within `MSG_MAX` and `OPT_MAX` may stand in the MRF. -/
theorem MessageForm.wf {c : Config} (hc : c.wf = true) {m : Message} {b : Bytes} (h : MessageForm m b)
    (hmsg : fits c.msgMax b.length = true) (hopt : fits c.optMax m.opts.length = true) : m.Wf c := by
  obtain ⟨tail, hwire⟩ := h.wireForm
  exact ⟨hwire.1, hwire.sorted, hopt, fits_storeMax hc (fits_mono hmsg h.store_le)⟩

/-- What a successful command commits keeps the bounds on the MRF and on OUT. -/
theorem Commits.wf {s : State} {i : Instr} {m : Message} {out : Bytes} (h : Commits s i m out) (hs : s.Inv) :
    m.Wf s.cfg ∧ fits s.cfg.msgMax out.length = true := by
  obtain ⟨hcfg, ⟨htoken, hsorted, hcount, hstore⟩, -, hout, -⟩ := hs
  cases h with
  | decode b _ hdec =>
    obtain ⟨hmsg, hform, hopt⟩ := decodeMessage_ok hdec
    exact ⟨hform.wf hcfg hmsg hopt, hout⟩
  | encode _ henc =>
    refine ⟨⟨htoken, hsorted, hcount, hstore⟩, ?_⟩
    rcases encodeMessage_cases s.cfg s.mrf htoken hsorted with ⟨-, herr⟩ | ⟨-, -, herr⟩ | ⟨-, hmsg, out', hok, -, hlen⟩
    · simp [henc] at herr
    · simp [henc] at herr
    · obtain rfl : out = out' := by simpa [henc] using hok
      exact hlen ▸ hmsg
  | clear => exact ⟨Message.default_wf _, hout⟩
  | setType | setCode | setMid => exact ⟨⟨htoken, hsorted, hcount, hstore⟩, hout⟩
  | setToken _ hlen => exact ⟨⟨hlen, hsorted, hcount, hstore⟩, hout⟩
  | addOption num val hroom hfit =>
    refine ⟨⟨htoken, insertOpt_sorted num val hsorted, ?_, ?_⟩, hout⟩
    · rw [insertOpt_length]
      exact fits_succ hcount hroom
    · rw [insertOpt_valueBytes, Nat.add_right_comm]
      exact hfit
  | setPayload _ hfit => exact ⟨⟨htoken, hsorted, hcount, hfit⟩, hout⟩

/-! ## The working variables of a DECODE in progress (10 R35) -/

/-- A read gives at most as many bytes as it asks for. -/
theorem memRead_length_le (buf : Bytes) (addr k : Nat) : (memRead buf addr k).length ≤ k := List.length_take_le ..

/-- A unit that does not end the DECODE keeps its working variables consistent. -/
theorem Advances.wf {c : Config} {w w' : DecodeWork} (h : Advances c w w') (hw : w.Wf c)
    (hpos : w.stage = .options → w.pos < w.inBuf.length) : w'.Wf c := by
  obtain ⟨hbuf, hfresh, hcursor, htoken, hsorted, hrun, hcount, hvalues, hpay⟩ := hw
  cases h with
  | header h hst h8 hlen =>
    have hopts : w.msg.opts = [] := by rw [hfresh hst]; rfl
    refine ⟨hbuf, nofun, hlen, (List.length_take_le ..).trans h8, hsorted, hrun, hcount, ?_, hpay⟩
    simp [hopts]
  | entry delta ext len hst hl hx hn hroom =>
    have hlt := hpos hst
    have hnum : (BitVec.ofNat 32 (w.num.toNat + delta)).toNat = w.num.toNat + delta := by
      rw [BitVec.toNat_ofNat]
      omega
    have hval := memRead_length_le w.inBuf (w.pos + 1 + ext) len
    refine ⟨hbuf, fun h => absurd (hst.symm.trans h) nofun, ?_, htoken, ?_, ?_, ?_, ?_, hpay⟩
    · show w.pos + 1 + ext + len ≤ w.inBuf.length
      rcases Nat.eq_zero_or_pos ext with rfl | hext
      · omega
      · have := hx hext
        omega
    · refine List.pairwise_append.mpr ⟨hsorted, List.pairwise_singleton .., fun a ha b hb => ?_⟩
      obtain rfl := List.mem_singleton.mp hb
      have := hrun a ha
      simp only [hnum]
      omega
    · intro o ho
      show o.num.toNat ≤ (BitVec.ofNat 32 (w.num.toNat + delta)).toNat
      rcases List.mem_append.mp ho with ho | ho
      · have := hrun o ho
        omega
      · rw [List.mem_singleton.mp ho]
    · show fits c.optMax (w.msg.opts ++ [_]).length = true
      rw [List.length_append, List.length_singleton]
      exact fits_succ hcount hroom
    · show valueBytes (w.msg.opts ++ [_]) ≤ w.pos + 1 + ext + len
      rw [valueBytes_append, valueBytes_cons, valueBytes_nil]
      show valueBytes w.msg.opts + ((memRead w.inBuf (w.pos + 1 + ext) len).length + 0) ≤ _
      omega

/-- The message of a DECODE in progress, with a payload from behind the cursor, may stand in the MRF. -/
theorem DecodeWork.Wf.commit_wf {c : Config} (hc : c.wf = true) {w : DecodeWork} (hw : w.Wf c) {p : Bytes}
    (hp : p.length ≤ w.inBuf.length - w.pos) : ({ w.msg with payload := p } : Message).Wf c := by
  have hvalues := hw.values
  have hcursor := hw.cursor
  refine ⟨hw.token, hw.sorted, hw.optCount, fits_storeMax hc (fits_mono hw.inBuf ?_)⟩
  show valueBytes w.msg.opts + p.length ≤ w.inBuf.length
  omega

/-! ## The invariant -/

/-- The fields of STATUS are legal at the end of every non-READ command (10 R33). -/
theorem statusWf_of_eq_statusWord {s : State} {e : Option Err} (h : s.status = statusWord e) : s.StatusWf := by
  obtain ⟨-, herr, hres, hcode, hle⟩ := statusWord_fields e
  refine ⟨?_, ?_, ?_⟩
  · rw [State.statusReserved, h, hres]
  · rw [State.err, State.errcode, h, hcode]
    exact herr
  · rw [State.errcode, h, hcode]
    exact hle

/-- The reset value of STATUS is legal. -/
theorem statusWf_of_eq_zero {s : State} (h : s.status = 0) : s.StatusWf := by
  refine ⟨?_, ?_, ?_⟩
  · rw [State.statusReserved, h]
    rfl
  · rw [State.err, State.errcode, h]
    decide
  · rw [State.errcode, h]
    decide

/-- A successful end keeps the invariant where what it commits does. -/
theorem State.afterSuccess_inv {s : State} (hcfg : s.cfg.wf = true) (hmrf : s.mrf.Wf s.cfg)
    (hout : fits s.cfg.msgMax s.out.length = true) (hw : s.work = .idle) : s.afterSuccess.Inv :=
  ⟨hcfg, hmrf, statusWf_of_eq_statusWord (e := none) rfl, hout, fun _ h => absurd (hw.symm.trans h) nofun⟩

/-- An error that ends a command or a DECODE keeps the invariant. -/
theorem State.Inv.afterError_idle {s : State} (hs : s.Inv) (e : Err) :
    (State.afterError { s with work := .idle } e).Inv :=
  ⟨hs.cfg, hs.mrf, statusWf_of_eq_statusWord (e := some e) (by cases e <;> rfl), hs.out, nofun⟩

/-- Settles O53: the reset values are within every bound, and no DECODE is in progress. -/
theorem resetMeetsTheInvariant : Obligations.ResetMeetsTheInvariant := by
  intro c hc
  exact ⟨hc, Message.default_wf c, statusWf_of_eq_zero rfl, fits_zero _, nofun⟩

/-- A host command keeps the invariant. -/
theorem exec_cmd_inv {i : Instr} {s t : State} (hf : i.format = .cmd) (hs : s.Inv) (h : exec i s = .next t) : t.Inv := by
  by_cases hread : ∃ sel idx, i = .read sel idx
  · obtain ⟨-, e, d, rfl⟩ := read_next (.inl hread) h
    exact ⟨hs.cfg, hs.mrf, ⟨hs.status.reserved, hs.status.err, hs.status.code⟩, hs.out, hs.work⟩
  · obtain ⟨hw, ⟨m, out, hcommit, rfl⟩ | ⟨e, rfl⟩⟩ := command_next hf (fun sel idx hi => hread ⟨sel, idx, hi⟩) h
    · obtain ⟨hm, hout⟩ := hcommit.wf hs
      exact State.afterSuccess_inv hs.cfg hm hout hw
    · rw [← State.idle_eta hw]
      exact hs.afterError_idle e

/-- Settles O54: a step is a command at the port, a unit of a DECODE in progress or the end of one, and each keeps the
invariant. -/
theorem everyStepKeepsTheInvariant : Obligations.EveryStepKeepsTheInvariant := by
  intro s t hs h
  cases hw : s.work with
  | idle =>
    obtain ⟨i, rest, -, hf, hexec⟩ := step_next_of_idle hw h
    have hs' : State.Inv { s with input := rest } :=
      ⟨hs.cfg, hs.mrf, ⟨hs.status.reserved, hs.status.err, hs.status.code⟩, hs.out, hs.work⟩
    exact exec_cmd_inv hf hs' hexec
  | decoding w =>
    have hwf := hs.work w hw
    rcases step_next_of_decoding hw h with ⟨i, hf, hpos, hexec⟩ | ⟨e, rfl⟩ | ⟨-, rfl⟩
    · obtain ⟨w₁, hw₁, hnext⟩ := unit_next hf hexec
      obtain rfl : w = w₁ := by simpa [hw] using hw₁
      rcases hnext with ⟨w', hadv, rfl⟩ | ⟨-, rfl⟩ | ⟨e, rfl⟩
      · refine ⟨hs.cfg, hs.mrf, ⟨hs.status.reserved, hs.status.err, hs.status.code⟩, hs.out, fun w'' hw'' => ?_⟩
        obtain rfl : w' = w'' := by simpa using hw''
        exact hadv.wf hwf hpos
      · exact State.afterSuccess_inv hs.cfg
          (hwf.commit_wf hs.cfg ((memRead_length_le ..).trans (Nat.sub_le ..))) hs.out rfl
      · exact hs.afterError_idle e
    · exact hs.afterError_idle e
    · exact State.afterSuccess_inv hs.cfg (hwf.commit_wf hs.cfg (by simp [hwf.payload])) hs.out rfl

end Sys2Proof.Machine
end

section
/-! The extension scheme (30 R76 to R78, 41 R133, R141) and the header (40 R100 to R106), in both directions, and what
DECODE makes of a header. -/

namespace Sys2Proof.Machine

/-! ## The extension scheme -/

/-- The nibble of an encoded value is never 15 (41 R140). -/
theorem ExtForm.nibble_le {n : BitVec 4} {x : Bytes} {v : Nat} (h : ExtForm n x v) : n.toNat ≤ 14 := by
  cases h with
  | literal _ h => omega
  | byte | word => decide

/-- What EXT_ENCODE gives stands for the value it is given. -/
theorem ExtForm.of_extEncode {v : Nat} {n : BitVec 4} {x : Bytes} (h : extEncode v = .ok (n, x)) : ExtForm n x v := by
  by_cases hv : v ≤ 65804
  · obtain ⟨n', x', henc, hform⟩ := extEncode_le hv
    obtain ⟨rfl, rfl⟩ : n' = n ∧ x' = x := by simpa [henc] using h
    exact hform
  · simp [extEncode_gt (Nat.lt_of_not_le hv)] at h

/-- Settles O6: EXT_ENCODE gives a form of every value up to 65804, and every form of a value is the one it gives. -/
theorem extensionEncodingIsUnique : Obligations.ExtensionEncodingIsUnique := by
  intro v
  refine ⟨fun hle => ?_, fun hgt => ⟨extEncode_gt hgt, fun n x hform => absurd hform.le (by omega)⟩⟩
  obtain ⟨n, x, henc, hform⟩ := extEncode_le hle
  refine ⟨n, x, henc, hform, hform.length_eq, fun n' x' hform' => ?_⟩
  simpa [henc, eq_comm] using hform'.encode_eq

/-- Settles O7: EXT_RESOLVE reads the form EXT_ENCODE gives, and whatever it reads is a form. -/
theorem extensionSchemeRoundTrips : Obligations.ExtensionSchemeRoundTrips := by
  refine ⟨fun v hle => ?_, fun n inBuf pos v pos' _ h => ?_⟩
  · obtain ⟨n, x, henc, hform⟩ := extEncode_le hle
    exact ⟨n, x, henc, fun before after =>
      extResolve_of_extForm hform (rest := after) (by rw [List.append_assoc, List.drop_left])⟩
  · rcases extResolve_cases n inBuf pos with ⟨x, rest, w, hform, hdrop, hok⟩ | ⟨herr, -⟩ | ⟨-, herr⟩
    · obtain ⟨rfl, rfl⟩ : w = v ∧ pos + x.length = pos' := by simpa [hok] using h
      rw [hform.encode_eq, memRead, hdrop, Nat.add_sub_cancel_left, List.take_left]
    · simp [herr] at h
    · simp [herr] at h

/-- Settles O8: the nibble is that of a form. -/
theorem encoderNeverEmitsNibbleFifteen : Obligations.EncoderNeverEmitsNibbleFifteen := by
  intro v n x h
  exact (ExtForm.of_extEncode h).nibble_le

/-! ## The header and the token -/

/-- A buffer that HDR_PARSE and TOKEN_EXTRACT accept begins with the header they read and the token. -/
theorem eq_header_token_of_read {buf token : Bytes} {h : Header} {pos : Nat} (hh : hdrParse buf = .ok h)
    (ht : tokenExtract buf h.tkl.toNat = .ok (token, pos)) :
    token.length = h.tkl.toNat ∧ token.length ≤ 8 ∧ ∃ rest,
      buf = [(1#2 ++ h.type ++ h.tkl : Byte), h.code, h.mid.extractLsb' 8 8, h.mid.extractLsb' 0 8] ++ (token ++ rest) := by
  rcases hdrParse_cases buf with ⟨h', rest, hok, h8, hbuf⟩ | ⟨e, -, herr⟩
  · obtain rfl : h' = h := by simpa [hok] using hh
    rcases tokenExtract_cases buf h'.tkl.toNat with ⟨-, herr⟩ | ⟨hle, hok'⟩
    · simp [herr] at ht
    · subst hbuf
      obtain rfl : rest.take h'.tkl.toNat = token := by
        rw [hok'] at ht
        cases ht
        rfl
      have hlen : (rest.take h'.tkl.toNat).length = h'.tkl.toNat := by
        rw [List.length_take]
        simp only [List.length_cons] at hle
        omega
      exact ⟨hlen, hlen.trans_le h8, rest.drop h'.tkl.toNat, by rw [List.take_append_drop]; rfl⟩
  · simp [herr] at hh

/-- Settles O9: HDR_PACK writes `headerBytes` and the token, which the readers read back; and a buffer that the readers
accept begins with those bytes. -/
theorem headerRoundTrips : Obligations.HeaderRoundTrips := by
  refine ⟨fun m buf h8 hlen => ?_, fun inBuf h token pos m hh ht htype hcode hmid htoken => ?_⟩
  · rw [hdrPack_spec m buf h8, List.append_assoc]
    refine ⟨hdrParse_headerBytes m _ h8, ?_⟩
    have hdrop : (headerBytes m ++ (m.token ++ buf.drop (4 + m.token.length))).drop 4 =
        m.token ++ buf.drop (4 + m.token.length) := rfl
    rw [tokenExtract_ok (by simp [headerBytes]), hdrop, List.take_left]
  · obtain ⟨hlen, h8, rest, hbuf⟩ := eq_header_token_of_read hh ht
    subst htoken
    have hbytes : headerBytes m = [1#2 ++ h.type ++ h.tkl, h.code, h.mid.extractLsb' 8 8, h.mid.extractLsb' 0 8] := by
      rw [headerBytes, htype, hcode, hmid, hlen, BitVec.ofNat_toNat, BitVec.setWidth_eq]
    rw [← hbytes] at hbuf
    have hrest : inBuf.drop (4 + m.token.length) = rest := by
      rw [hbuf]
      exact drop_add_of_drop_eq (i := 4) rfl
    rw [hdrPack_spec m inBuf h8, hrest, List.append_assoc, ← hbuf]

/-! ## DECODE of a header (42 R161 to R163) -/

theorem headerByte_version (b : Byte) : (b.extractLsb' 6 2).toNat = b.toNat / 64 := by revert b; decide

theorem headerByte_tokenLength (b : Byte) : (b.extractLsb' 0 4).toNat = b.toNat % 16 := by revert b; decide

/-- A first byte with version 1 is rebuilt from its type and its token length (30 R71). -/
theorem headerByte_of_fields (b : Byte) :
    b.toNat / 64 = 1 → (1#2 ++ BitVec.ofNat 2 (b.toNat / 16 % 4) ++ BitVec.ofNat 4 (b.toNat % 16) : Byte) = b := by
  revert b
  decide

/-- The version of a first byte is 1 exactly where its top two bits are (30 R71). -/
theorem headerByte_version_eq_one {b : Byte} : b.extractLsb' 6 2 = 1 ↔ b.toNat / 64 = 1 := by
  rw [← headerByte_version, ← BitVec.toNat_inj]
  rfl

/-- HDR_PARSE of four bytes and more is its checks on their fields. -/
theorem hdrParse_cons (b0 b1 b2 b3 : Byte) (rest : Bytes) :
    hdrParse (b0 :: b1 :: b2 :: b3 :: rest) = hdrCheck (rest.length + 4) (b0.extractLsb' 6 2)
      ⟨b0.extractLsb' 4 2, b0.extractLsb' 0 4, b1, word16 b2 b3⟩ := rfl

/-- Settles O25: the operand's bound, then the checks of HDR_PARSE, then TOKEN_EXTRACT's. -/
theorem decodeChecksTheHeaderInOrder : Obligations.DecodeChecksTheHeaderInOrder := by
  intro s b hw
  refine ⟨fun hmsg => exec_decode_of_error hw (if_pos hmsg), fun hmsg => ⟨fun h4 => ?_, ?_⟩⟩
  · exact exec_decode_of_error hw (decodeMessage_of_header_error hmsg (hdrParse_short h4))
  rintro b0 b1 b2 b3 rest rfl
  have hparse := hdrParse_cons b0 b1 b2 b3 rest
  refine ⟨fun hver => ?_, fun hver h8 => ?_, fun hver h8 hlen => ?_⟩
  · rw [hdrCheck_version (by omega) (mt headerByte_version_eq_one.mp hver)] at hparse
    exact exec_decode_of_error hw (decodeMessage_of_header_error hmsg hparse)
  · rw [headerByte_version_eq_one.mpr hver, hdrCheck_tokenLength (by omega) (by rwa [headerByte_tokenLength])] at hparse
    exact exec_decode_of_error hw (decodeMessage_of_header_error hmsg hparse)
  · rw [headerByte_version_eq_one.mpr hver, hdrCheck_ok (by omega) (by rwa [headerByte_tokenLength])] at hparse
    refine exec_decode_of_error hw (decodeMessage_of_token_error hmsg hparse ?_)
    rw [headerByte_tokenLength]
    exact hlen

/-- Settles O26: the operand is the wire form of the message with these fields and nothing after its token. -/
theorem decodeOfHeaderAndTokenAlone : Obligations.DecodeOfHeaderAndTokenAlone := by
  intro s b0 b1 b2 b3 token hw hver hlen h8 hmsg
  have hmid : BitVec.ofNat 16 (b2.toNat * 256 + b3.toNat) = word16 b2 b3 := by
    rw [← word16_toNat, BitVec.ofNat_toNat, BitVec.setWidth_eq]
  obtain ⟨hhi, hlo⟩ := extract_word16 b2 b3
  refine exec_decode_of_ok hw (decodeMessage_of_form ?_ (.inl ⟨rfl, h8, [], .nil 0, ?_⟩) (fits_zero _))
  · rw [show (b0 :: b1 :: b2 :: b3 :: token).length = 4 + token.length from Nat.add_comm _ 4]
    exact hmsg
  · simp only [headerBytes, hlen, headerByte_of_fields b0 hver, hmid, hhi, hlo, List.cons_append, List.nil_append,
      List.append_nil]

/-! ## ENCODE after reset (70 R232) -/

/-- The encoder's form of the default message. -/
theorem encoderForm_default : EncoderForm Message.default [0x40, 0x00, 0x00, 0x00] :=
  ⟨by decide, [], .nil 0, by decide⟩

/-- Settles O46: a legal `MSG_MAX` is at least the 4 bytes of the default message. -/
theorem firstEncodeAfterReset : Obligations.FirstEncodeAfterReset := by
  intro c hc
  refine exec_encode_of_form rfl encoderForm_default ?_
  show fits c.msgMax 4 = true
  cases hmax : c.msgMax with
  | none => rfl
  | some n =>
    simp only [Config.wf, hmax, Bool.and_eq_true, decide_eq_true_eq] at hc
    simpa [fits] using hc.1

end Sys2Proof.Machine
end

section
/-! What an instruction and a step leave as they were, what every command gives, and what its outcome may rest on
(10 R20, R33, R34, R38; 20 R58, R59, R61, R64; 42 R160; 60 R204, R205). -/

namespace Sys2Proof.Machine

/-! ## The three kinds of instruction -/

/-- An instruction is a command other than READ, a READ in one of its two forms, or a wire row. -/
theorem kind_cases (i : Instr) :
    (i.format = .cmd ∧ ∀ sel idx, i ≠ .read sel idx) ∨ ((∃ sel idx, i = .read sel idx) ∨ i.format = .readSel) ∨
      (i.format = .wireHeader ∨ i.format = .wireDesc) := by
  by_cases hread : ∃ sel idx, i = .read sel idx
  · exact .inr (.inl (.inl hread))
  · cases hf : i.format with
    | cmd => exact .inl ⟨rfl, fun sel idx h => hread ⟨sel, idx, h⟩⟩
    | readSel => exact .inr (.inl (.inr rfl))
    | wireHeader => exact .inr (.inr (.inl rfl))
    | wireDesc => exact .inr (.inr (.inr rfl))

/-- Host commands and READ rows run only in an idle block (70 R233). -/
theorem exec_eq_whenIdle {i : Instr} (hf : i.format = .cmd ∨ i.format = .readSel) (s : State) :
    ∃ r, exec i s = whenIdle s r := by
  rcases kind_cases i with ⟨hcmd, hn⟩ | hread | hwire
  · cases i with
    | read sel idx => exact absurd rfl (hn sel idx)
    | decode | encode | clear | setType | setCode | setMid | setToken | addOption | setPayload | reservedOpcode =>
      exact ⟨_, rfl⟩
    | _ => cases hcmd
  · obtain ⟨r, h⟩ := read_eq_runRead s hread
    exact ⟨_, h⟩
  · rcases hf with hf | hf <;> simp [hf] at hwire

/-- A wire row runs only at its stage of a DECODE in progress (log 7). -/
theorem exec_eq_inDecode {i : Instr} (hf : i.format = .wireHeader ∨ i.format = .wireDesc) (s : State) :
    ∃ st f, exec i s = inDecode s st f := by
  cases i with
  | hdr | optLL | optLB | optLW | optBL | optBB | optBW | optWL | optWB | optWW | optRL => exact ⟨_, _, rfl⟩
  | sentinel => exact ⟨_, _, by rw [exec, execSentinel]⟩
  | optRD => exact ⟨_, _, by rw [exec, execOptRD, entryUnit]⟩
  | _ => simp [Instr.format] at hf

/-- Settles O14: the guard of the commands and that of the units. -/
theorem noMoveForAnOverlappingCommand : Obligations.NoMoveForAnOverlappingCommand := by
  intro i s
  refine ⟨fun hf w hw => ?_, fun hf hw => ?_⟩
  · obtain ⟨r, h⟩ := exec_eq_whenIdle hf s
    rw [h, whenIdle_busy hw]
  · obtain ⟨st, f, h⟩ := exec_eq_inDecode hf s
    rw [h, inDecode, hw]

/-! ## What a command gives -/

/-- A host command that answers a next state gave one response, and the block is idle. -/
theorem command_responds {i : Instr} {s t : State} (hf : i.format = .cmd ∨ i.format = .readSel)
    (h : exec i s = .next t) : ∃ r, t.responses = r :: s.responses ∧ t.work = .idle := by
  rcases kind_cases i with ⟨hcmd, hn⟩ | hread | hwire
  · obtain ⟨hw, ⟨m, out, -, rfl⟩ | ⟨e, rfl⟩⟩ := command_next hcmd hn h
    · exact ⟨_, rfl, hw⟩
    · exact ⟨_, rfl, hw⟩
  · obtain ⟨hw, e, d, rfl⟩ := read_next hread h
    exact ⟨_, rfl, hw⟩
  · rcases hf with hf | hf <;> simp [hf] at hwire

/-- Settles O47: in an idle block a command does what it does in the block alone, where it answers a next state. -/
theorem everyCommandCompletes : Obligations.EveryCommandCompletes := by
  intro i s hf hw
  obtain ⟨a, -, h⟩ := exec_alone hf hw
  obtain ⟨r, hr, hidle⟩ := command_responds hf h
  exact ⟨_, r, h, hr, hidle⟩

/-- A command other than READ leaves in STATUS the outcome that its response reports (10 R33). -/
theorem command_status {i : Instr} {s t : State} (hf : i.format = .cmd) (hn : ∀ sel idx, i ≠ .read sel idx)
    (h : exec i s = .next t) : ∃ e, t.responses = ⟨e, []⟩ :: s.responses ∧ t.status = statusWord e := by
  obtain ⟨-, ⟨m, out, -, rfl⟩ | ⟨e, rfl⟩⟩ := command_next hf hn h
  · exact ⟨none, rfl, rfl⟩
  · exact ⟨some e, rfl, by cases e <;> rfl⟩

/-- Settles O48: READ only responds, and any other command ends with `statusWord` of its outcome. -/
theorem statusRecordsEveryCommandButRead : Obligations.StatusRecordsEveryCommandButRead := by
  intro i s t _ h
  refine ⟨fun hread => ?_, fun hn hf => ?_⟩
  · obtain ⟨-, e, d, rfl⟩ := read_next hread h
    rfl
  · obtain ⟨e, hr, hst⟩ := command_status hf hn h
    obtain ⟨hdone, herr, hres, hcode, -⟩ := statusWord_fields e
    exact ⟨e, hr, by rw [State.done, hst, hdone], by rw [State.errcode, hst, hcode], by rw [State.err, hst]; exact herr,
      by rw [State.statusReserved, hst, hres]⟩

/-! ## What an instruction leaves as it was -/

/-- Only ENCODE commits another OUT. -/
theorem Commits.out_eq {s : State} {i : Instr} {m : Message} {out : Bytes} (h : Commits s i m out) (hi : i ≠ .encode) :
    out = s.out := by
  cases h with
  | encode => exact absurd rfl hi
  | _ => rfl

/-- Settles O50: a READ and a wire unit leave OUT, a command that fails commits nothing, and one that succeeds commits
another OUT only if it is ENCODE. -/
theorem onlyASuccessfulEncodeWritesOut : Obligations.OnlyASuccessfulEncodeWritesOut := by
  intro i s t h hout
  rcases kind_cases i with ⟨hf, hn⟩ | hread | hwire
  · obtain ⟨-, ⟨m, out, hcommit, rfl⟩ | ⟨e, rfl⟩⟩ := command_next hf hn h
    · exact hcommit.out_eq (hout.resolve_right fun hst => hst rfl)
    · rfl
  · obtain ⟨-, e, d, rfl⟩ := read_next hread h
    rfl
  · obtain ⟨w, -, ⟨w', -, rfl⟩ | ⟨-, rfl⟩ | ⟨e, rfl⟩⟩ := unit_next hwire h
    · rfl
    · rfl
    · rfl

/-- Settles O51: a READ and a command that fails leave the MRF, and each mutator commits it with its own field replaced. -/
theorem onlyTheListedCommandsWriteTheMrf : Obligations.OnlyTheListedCommandsWriteTheMrf := by
  intro i s t hf h hdecode hclear
  rcases kind_cases i with ⟨hcmd, hn⟩ | hread | hwire
  · obtain ⟨-, ⟨m, out, hcommit, rfl⟩ | ⟨e, rfl⟩⟩ := command_next hcmd hn h
    · cases hcommit with
      | decode b => exact absurd rfl (hdecode b)
      | clear => exact absurd rfl hclear
      | encode => exact ⟨.inl rfl, .inl rfl, .inl rfl, .inl rfl, .inl rfl, .inl rfl⟩
      | setType v => exact ⟨.inr ⟨v, rfl⟩, .inl rfl, .inl rfl, .inl rfl, .inl rfl, .inl rfl⟩
      | setCode v => exact ⟨.inl rfl, .inr ⟨v, rfl⟩, .inl rfl, .inl rfl, .inl rfl, .inl rfl⟩
      | setMid v => exact ⟨.inl rfl, .inl rfl, .inr ⟨v, rfl⟩, .inl rfl, .inl rfl, .inl rfl⟩
      | setToken v => exact ⟨.inl rfl, .inl rfl, .inl rfl, .inr ⟨v, rfl⟩, .inl rfl, .inl rfl⟩
      | addOption n v => exact ⟨.inl rfl, .inl rfl, .inl rfl, .inl rfl, .inr ⟨n, v, rfl⟩, .inl rfl⟩
      | setPayload v => exact ⟨.inl rfl, .inl rfl, .inl rfl, .inl rfl, .inl rfl, .inr ⟨v, rfl⟩⟩
    · exact ⟨.inl rfl, .inl rfl, .inl rfl, .inl rfl, .inl rfl, .inl rfl⟩
  · obtain ⟨-, e, d, rfl⟩ := read_next hread h
    exact ⟨.inl rfl, .inl rfl, .inl rfl, .inl rfl, .inl rfl, .inl rfl⟩
  · rcases hf with hf | hf <;> simp [hf] at hwire

/-- No instruction writes the parameters or takes bytes from the port, and none gives more than one response. -/
theorem exec_ports {i : Instr} {s t : State} (h : exec i s = .next t) :
    t.cfg = s.cfg ∧ t.input = s.input ∧ (t.responses = s.responses ∨ ∃ r, t.responses = r :: s.responses) := by
  rcases kind_cases i with ⟨hf, hn⟩ | hread | hwire
  · obtain ⟨-, ⟨m, out, -, rfl⟩ | ⟨e, rfl⟩⟩ := command_next hf hn h
    · exact ⟨rfl, rfl, .inr ⟨_, rfl⟩⟩
    · exact ⟨rfl, rfl, .inr ⟨_, rfl⟩⟩
  · obtain ⟨-, e, d, rfl⟩ := read_next hread h
    exact ⟨rfl, rfl, .inr ⟨_, rfl⟩⟩
  · obtain ⟨w, -, ⟨w', -, rfl⟩ | ⟨-, rfl⟩ | ⟨e, rfl⟩⟩ := unit_next hwire h
    · exact ⟨rfl, rfl, .inl rfl⟩
    · exact ⟨rfl, rfl, .inr ⟨_, rfl⟩⟩
    · exact ⟨rfl, rfl, .inr ⟨_, rfl⟩⟩

/-- Settles O52: a step takes a command's bytes from the port and executes it, or executes a unit, or ends the DECODE. -/
theorem stepsKeepParametersAndTakeInputInOrder : Obligations.StepsKeepParametersAndTakeInputInOrder := by
  intro s t h
  cases hw : s.work with
  | idle =>
    obtain ⟨i, rest, hport, -, hexec⟩ := step_next_of_idle hw h
    obtain ⟨hcfg, hin, hresp⟩ := exec_ports hexec
    obtain ⟨taken, htaken⟩ := decodeCommand_suffix hport
    exact ⟨hcfg, ⟨taken, htaken.trans (congrArg _ hin.symm)⟩, hresp⟩
  | decoding w =>
    rcases step_next_of_decoding hw h with ⟨i, -, -, hexec⟩ | ⟨e, rfl⟩ | ⟨-, rfl⟩
    · obtain ⟨hcfg, hin, hresp⟩ := exec_ports hexec
      exact ⟨hcfg, ⟨[], hin.symm⟩, hresp⟩
    · exact ⟨rfl, ⟨[], rfl⟩, .inr ⟨_, rfl⟩⟩
    · exact ⟨rfl, ⟨[], rfl⟩, .inr ⟨_, rfl⟩⟩

/-! ## What an outcome may rest on -/

/-- Settles O36: a READ does what it does in the block alone, and a response more does not change that block. -/
theorem readChangesNothingAndRepeats : Obligations.ReadChangesNothingAndRepeats := by
  intro s t i hread h
  have hf : i.format = .cmd ∨ i.format = .readSel := hread.imp (fun ⟨_, _, h⟩ => h ▸ rfl) id
  obtain ⟨hw, e, d, rfl⟩ := read_next hread h
  obtain ⟨a, ha, hs⟩ := exec_alone hf hw
  obtain ⟨a', ha', hs'⟩ := exec_alone (s := s.respond e d) hf hw
  obtain rfl : a = a' := by
    rw [show (s.respond e d).alone = s.alone from rfl, ha] at ha'
    injection ha'
  have hat : s.respond e d = a.atPorts s.input s.responses := by
    rw [h] at hs
    injection hs
  have hresp : a.responses = [⟨e, d⟩] :=
    List.append_cancel_right (congrArg State.responses hat).symm
  refine ⟨⟨e, d⟩, rfl, hs'.trans (congrArg _ ?_)⟩
  show { a.atPorts s.input s.responses with responses := a.responses ++ (s.respond e d).responses } = _
  rw [← hat, hresp]
  rfl

/-- A command other than READ in two idle blocks with the same parameters and MRF commits the same message in both, or fails
in both with the same error. -/
theorem command_outcome_agrees {i : Instr} {s s' : State} (hf : i.format = .cmd) (hn : ∀ sel idx, i ≠ .read sel idx)
    (hw : s.work = .idle) (hw' : s'.work = .idle) (hcfg : s.cfg = s'.cfg) (hmrf : s.mrf = s'.mrf) :
    (∃ (m : Message) (f : Bytes → Bytes), exec i s = .next (State.afterSuccess { s with mrf := m, out := f s.out }) ∧
      exec i s' = .next (State.afterSuccess { s' with mrf := m, out := f s'.out })) ∨
    ∃ e, exec i s = .next (s.afterError e) ∧ exec i s' = .next (s'.afterError e) := by
  obtain ⟨cfg, mrf, status, out, work, input, responses⟩ := s'
  obtain rfl : s.cfg = cfg := hcfg
  obtain rfl : s.mrf = mrf := hmrf
  cases i with
  | decode b =>
    rcases h : decodeMessage s.cfg b with e | m
    · exact .inr ⟨e, exec_decode_of_error hw h, exec_decode_of_error hw' h⟩
    · exact .inl ⟨m, id, exec_decode_of_ok hw h, exec_decode_of_ok hw' h⟩
  | encode =>
    rcases h : encodeMessage s.cfg s.mrf with e | out
    · exact .inr ⟨e, exec_encode_of_error hw h, exec_encode_of_error hw' h⟩
    · exact .inl ⟨s.mrf, fun _ => out, exec_encode_of_ok hw h, exec_encode_of_ok hw' h⟩
  | clear =>
    simp only [exec, execClear]
    exact .inl ⟨_, id, runCommand_of_ok hw rfl, runCommand_of_ok hw' rfl⟩
  | setCode c =>
    simp only [exec, execSetCode]
    exact .inl ⟨_, id, runCommand_of_ok hw rfl, runCommand_of_ok hw' rfl⟩
  | setMid v =>
    simp only [exec, execSetMid]
    exact .inl ⟨_, id, runCommand_of_ok hw rfl, runCommand_of_ok hw' rfl⟩
  | reservedOpcode op =>
    simp only [exec, execReservedOpcode]
    exact .inr ⟨_, runCommand_of_error hw rfl, runCommand_of_error hw' rfl⟩
  | setType t =>
    by_cases ht : t.toNat > 3
    · exact .inr ⟨_, runCommand_of_error hw (if_pos ht), runCommand_of_error hw' (if_pos ht)⟩
    · exact .inl ⟨_, id, runCommand_of_ok hw (if_neg ht), runCommand_of_ok hw' (if_neg ht)⟩
  | setToken token =>
    by_cases ht : token.length > 8
    · exact .inr ⟨_, runCommand_of_error hw (if_pos ht), runCommand_of_error hw' (if_pos ht)⟩
    · exact .inl ⟨_, id, runCommand_of_ok hw (if_neg ht), runCommand_of_ok hw' (if_neg ht)⟩
  | setPayload p =>
    by_cases hp : fits s.cfg.storeMax (valueBytes s.mrf.opts + p.length) = false
    · exact .inr ⟨_, runCommand_of_error hw (if_pos hp), runCommand_of_error hw' (if_pos hp)⟩
    · exact .inl ⟨_, id, runCommand_of_ok hw (if_neg hp), runCommand_of_ok hw' (if_neg hp)⟩
  | addOption num val =>
    by_cases hc : s.cfg.optMax = some s.mrf.opts.length
    · exact .inr ⟨_, runCommand_of_error hw (if_pos hc), runCommand_of_error hw' (if_pos hc)⟩
    by_cases hp : fits s.cfg.storeMax (valueBytes s.mrf.opts + s.mrf.payload.length + val.length) = false
    · exact .inr ⟨_, runCommand_of_error hw ((if_neg hc).trans (if_pos hp)),
        runCommand_of_error hw' ((if_neg hc).trans (if_pos hp))⟩
    · exact .inl ⟨_, id, runCommand_of_ok hw ((if_neg hc).trans (if_neg hp)),
        runCommand_of_ok hw' ((if_neg hc).trans (if_neg hp))⟩
  | read sel idx => exact absurd rfl (hn sel idx)
  | _ => cases hf

/-- Settles O56: a command other than READ ends alike where the parameters and the MRF agree; for a READ, two blocks that
agree in STATUS and OUT too are the same block alone. -/
theorem commandsRestOnTheArchitecturalStateAlone : Obligations.CommandsRestOnTheArchitecturalStateAlone := by
  intro i s s' hf hw hw' hcfg hmrf
  by_cases hread : (∃ sel idx, i = .read sel idx) ∨ i.format = .readSel
  · obtain ⟨a, ha, hs⟩ := exec_alone hf hw
    obtain ⟨a', ha', hs'⟩ := exec_alone hf hw'
    obtain ⟨r, hr, -⟩ := command_responds hf ha
    refine ⟨_, _, r, hs, hs', fun hn hcmd => ?_, fun hst hout => ?_⟩
    · rcases hread with ⟨sel, idx, hi⟩ | hrow
      · exact absurd hi (hn sel idx)
      · simp [hcmd] at hrow
    · have halone : s.alone = s'.alone := by simp only [State.alone, hcfg, hmrf, hst, hout]
      obtain rfl : a = a' := by
        rw [← halone, ha] at ha'
        injection ha'
      exact ⟨rfl, rfl, rfl, congrArg (· ++ s.responses) hr, congrArg (· ++ s'.responses) hr⟩
  · obtain ⟨hnotRead, hnotRow⟩ := not_or.mp hread
    rcases command_outcome_agrees (hf.resolve_right hnotRow) (fun sel idx hi => hnotRead ⟨sel, idx, hi⟩) hw hw' hcfg hmrf
      with ⟨m, f, h, h'⟩ | ⟨e, h, h'⟩
    · exact ⟨_, _, _, h, h', fun _ _ => ⟨rfl, rfl, rfl, rfl⟩, fun _ hout => ⟨rfl, rfl, congrArg f hout, rfl, rfl⟩⟩
    · exact ⟨_, _, _, h, h', fun _ _ => ⟨hmrf, rfl, rfl, rfl⟩, fun _ hout => ⟨hmrf, rfl, hout, rfl, rfl⟩⟩

/-! ## Several blocks side by side (20 R64, 60 R208) -/

/-- A step of one block replaces that block. -/
theorem bankStep_of_step {bank : List State} {j : Nat} {s t : State} (hj : bank[j]? = some s) (h : step s = .next t) :
    bankStep bank j = .next (bank.set j t) := by
  simp only [bankStep, hj, h]

/-- A step of an idle block with a command at its port is that command in the block alone, its ports put back. -/
theorem step_alone {s : State} {i : Instr} {rest : Bytes} (hw : s.work = .idle)
    (hport : decodeCommand s.input = .command i rest) :
    ∃ a, exec i s.alone = .next a ∧ step s = .next (a.atPorts rest s.responses) := by
  obtain ⟨-, hf, -⟩ := commandDecodingLosesNothing _ _ _ hport
  obtain ⟨a, ha, hs⟩ := exec_alone (s := { s with input := rest }) (.inl hf) hw
  exact ⟨a, ha, (stepRunsTheCommandAtThePort s i rest hw hport).trans hs⟩

/-- Settles O55: each step replaces its own block by what its command gives alone, and two replacements at different places
commute. -/
theorem instancesAreIndependent : Obligations.InstancesAreIndependent := by
  intro bank j k sj sk ij ik rj rk hjk hj hk hwj hwk hpj hpk
  obtain ⟨aj, haj, hstepj⟩ := step_alone hwj hpj
  obtain ⟨ak, hak, hstepk⟩ := step_alone hwk hpk
  have hjlt : j < bank.length := (List.getElem?_eq_some_iff.mp hj).1
  have hklt : k < bank.length := (List.getElem?_eq_some_iff.mp hk).1
  refine ⟨aj, ak, _, _, (bank.set j (aj.atPorts rj sj.responses)).set k (ak.atPorts rk sk.responses), haj, hak,
    bankStep_of_step hj hstepj, bankStep_of_step ?_ hstepk, bankStep_of_step hk hstepk, ?_, ?_, ?_, ?_⟩
  · rw [List.getElem?_set_ne hjk, hk]
  · rw [List.set_comm _ _ hjk]
    exact bankStep_of_step (by rw [List.getElem?_set_ne hjk.symm, hj]) hstepj
  · rw [List.getElem?_set_ne hjk.symm, List.getElem?_set_self hjlt]
  · rw [List.getElem?_set_self (by rwa [List.length_set])]
  · intro l hlj hlk
    rw [List.getElem?_set_ne hlk.symm, List.getElem?_set_ne hlj.symm]

end Sys2Proof.Machine
end

section
/-! The commands with a capacity check, the reserved opcodes, READ, and CLEAR beside reset (10 R29, R39; 30 R88; 42 R171
to R174; 70 R231). -/

namespace Sys2Proof.Machine

/-! ## The mutators with a capacity check (42 R171, R172) -/

/-- A count breaks a bound that is a number below it, and no other. -/
theorem fits_eq_false_iff {b : Option Nat} {n : Nat} : fits b n = false ↔ ∃ m, b = some m ∧ m < n := by
  cases b <;> simp [fits]

/-- A count keeps a bound that is unbounded or a number not below it. -/
theorem fits_eq_true_iff {b : Option Nat} {n : Nat} : fits b n = true ↔ ∀ m, b = some m → n ≤ m := by
  cases b <;> simp [fits]

/-- Settles O18: the two bounds are the two branches that fail, and the insertion is the third. -/
theorem addOptionInsertsOrRejects : Obligations.AddOptionInsertsOrRejects := by
  intro s num val hw total i
  refine ⟨fun hcount => runCommand_of_error hw (if_pos hcount), fun hstore => ?_, fun hcount hstore => ?_⟩
  · by_cases hcount : s.cfg.optMax = some s.mrf.opts.length
    · exact runCommand_of_error hw (if_pos hcount)
    · exact runCommand_of_error hw ((if_neg hcount).trans (if_pos (fits_eq_false_iff.mpr hstore)))
  · have hfits := ne_of_eq_of_ne (fits_eq_true_iff.mpr hstore) (by decide : true ≠ false)
    have hidx : s.mrf.opts.countP (fun r => decide (r.num.toNat ≤ num.toNat)) = i := List.countP_eq_length_filter
    rw [← hidx]
    exact runCommand_of_ok hw ((if_neg hcount).trans (if_neg hfits))

/-- The records of one number keep their order under an insertion, and the new one stands last among those of its own. -/
theorem filter_insertOpt {opts : List Opt} (num : BitVec 32) (val : Bytes) (h : NumsSorted opts) (k : BitVec 32) :
    (insertOpt opts num val).filter (fun r => r.num = k) =
      opts.filter (fun r => r.num = k) ++ (if k = num then [⟨num, val⟩] else []) := by
  obtain ⟨a, b, hins, hopts, -, hb⟩ := insertOpt_split num val h
  rw [hins, hopts]
  simp only [List.filter_append]
  by_cases hk : k = num
  · subst hk
    have hnone : b.filter (fun r => r.num = k) = [] := by
      rw [List.filter_eq_nil_iff]
      intro o ho hok
      have hlt := hb o ho
      rw [of_decide_eq_true hok] at hlt
      omega
    simp [hnone]
  · simp [hk, Ne.symm hk]

/-- Settles O19: what a successful ADD_OPTION commits is the insertion. -/
theorem addOptionIsSortedAndStable : Obligations.AddOptionIsSortedAndStable := by
  intro s t num val hsorted h hst
  obtain ⟨-, m, out, hcommit, rfl⟩ := command_next_of_success rfl (fun _ _ => by simp) h hst
  cases hcommit with
  | addOption => exact ⟨insertOpt_sorted num val hsorted, filter_insertOpt num val hsorted⟩

/-- Settles O20: the bound is the branch that fails. -/
theorem setPayloadStoresOrRejects : Obligations.SetPayloadStoresOrRejects := by
  intro s p hw total
  refine ⟨fun hstore => runCommand_of_error hw (if_pos (fits_eq_false_iff.mpr hstore)), fun hstore => ?_⟩
  exact runCommand_of_ok hw (if_neg (ne_of_eq_of_ne (fits_eq_true_iff.mpr hstore) (by decide)))

/-- Settles O22: a reserved opcode always ends with its error, whose STATUS is 0x0C03. -/
theorem reservedOpcodeReportsIllegalCommand : Obligations.ReservedOpcodeReportsIllegalCommand := by
  intro s op hw _
  exact runCommand_of_error (e := .illegalCommand) hw rfl

/-! ## READ (30 R88, 42 R173) -/

/-- A READ that gives bytes. -/
theorem runRead_of_ok {s : State} (hw : s.work = .idle) (d : Bytes) : runRead s (.ok d) = .next (s.afterRead d) :=
  runRead_idle hw _

/-- A READ that reports `IllegalCommand`. -/
theorem runRead_of_illegal {s : State} (hw : s.work = .idle) :
    runRead s (.error .illegalCommand) = .next s.afterBadRead :=
  runRead_idle hw _

/-- A length below 2^32 is read as its four bytes. -/
theorem lengthBytes_of_lt (wide : Nat → BitVec 32) {n : Nat} (h : n < 2 ^ 32) :
    lengthBytes wide n = bytes32 (BitVec.ofNat 32 n) := by
  rw [lengthBytes, if_pos h]

theorem optField_of_some {s : State} {idx : BitVec 32} {o : Opt} (h : s.mrf.opts[idx.toNat]? = some o) (f : Opt → Bytes) :
    optField s idx f = .ok (f o) := by
  rw [optField, h]

theorem optField_of_le {s : State} {idx : BitVec 32} (h : s.mrf.opts.length ≤ idx.toNat) (f : Opt → Bytes) :
    optField s idx f = .error .illegalCommand := by
  rw [optField, List.getElem?_eq_none h]

/-- Settles O34: each row is a `runRead` of its field, whose bytes are big-endian. -/
theorem readRowsReturnTheirField : Obligations.ReadRowsReturnTheirField := by
  intro s idx hw be32 be16
  have hword (v : BitVec 32) : be32 v.toNat = bytes32 v := (bytes32_toNat v).symm
  have hhalf (v : BitVec 16) : be16 v.toNat = bytes16 v := (bytes16_toNat v).symm
  have hlength (wide : Nat → BitVec 32) {n : Nat} (h : n < 2 ^ 32) : be32 n = lengthBytes wide n := by
    rw [lengthBytes_of_lt wide h, ← hword, BitVec.toNat_ofNat, Nat.mod_eq_of_lt h]
  refine ⟨runRead_of_ok hw _, ?_, runRead_of_ok hw _, runRead_of_ok hw _, ?_, runRead_of_ok hw _, fun h => ?_,
    fun o ho => ⟨?_, ?_⟩, runRead_of_ok hw _, ?_, fun h => ?_, runRead_of_ok hw _, ⟨_, rfl, runRead_of_ok hw _⟩,
    ⟨_, rfl, runRead_of_ok hw _⟩⟩
  · rw [BitVec.ofNat_toNat]
    exact runRead_of_ok hw _
  · rw [hhalf]
    exact runRead_of_ok hw _
  · rw [hlength Config.wideOptCount h]
    exact runRead_of_ok hw _
  · rw [hword, exec, execReadOptNum, optField_of_some ho]
    exact runRead_of_ok hw _
  · rw [exec, execReadOptVal, optField_of_some ho]
    exact runRead_of_ok hw _
  · rw [hhalf]
    exact runRead_of_ok hw _
  · rw [hlength Config.wideOutLen h]
    exact runRead_of_ok hw _

theorem exec_readReserved {s : State} (hw : s.work = .idle) (sel : Byte) (idx : BitVec 32) :
    exec (.readReserved sel idx) s = .next s.afterBadRead := by
  rw [exec, execReadReserved, runRead_of_illegal hw]

theorem exec_readOptNum_of_le {s : State} {idx : BitVec 32} (hw : s.work = .idle) (h : s.mrf.opts.length ≤ idx.toNat) :
    exec (.readOptNum idx) s = .next s.afterBadRead := by
  rw [exec, execReadOptNum, optField_of_le h, runRead_of_illegal hw]

theorem exec_readOptVal_of_le {s : State} {idx : BitVec 32} (hw : s.work = .idle) (h : s.mrf.opts.length ≤ idx.toNat) :
    exec (.readOptVal idx) s = .next s.afterBadRead := by
  rw [exec, execReadOptVal, optField_of_le h, runRead_of_illegal hw]

/-- The row of a selector up to 0x0C gives bytes, if an option field's index is in range. -/
theorem exec_selectRow {s : State} (hw : s.work = .idle) {sel : Byte} {idx : BitVec 32} (hsel : sel.toNat ≤ 0x0C)
    (hidx : sel = 0x07 ∨ sel = 0x08 → idx.toNat < s.mrf.opts.length) :
    ∃ d, exec (selectRow sel idx) s = .next (s.afterRead d) := by
  unfold selectRow
  split
  case h_8 h =>
    have hget := List.getElem?_eq_getElem (hidx (.inl (BitVec.eq_of_toNat_eq h)))
    rw [exec, execReadOptNum, optField_of_some hget]
    exact ⟨_, runRead_of_ok hw _⟩
  case h_9 h =>
    have hget := List.getElem?_eq_getElem (hidx (.inr (BitVec.eq_of_toNat_eq h)))
    rw [exec, execReadOptVal, optField_of_some hget]
    exact ⟨_, runRead_of_ok hw _⟩
  case h_14 =>
    simp only [imp_false] at *
    omega
  all_goals exact ⟨_, runRead_of_ok hw _⟩

/-- Settles O35: READ is the row of its selector, and the rows that report `IllegalCommand` are the reserved one and those
of an option field out of range. -/
theorem readReturnsItsSelectorRow : Obligations.ReadReturnsItsSelectorRow := by
  intro s sel idx hw
  refine ⟨fun hsel => ⟨?_, exec_readReserved hw sel idx⟩, fun hle => ⟨?_, ?_, ?_, ?_⟩, fun hsel hidx => ?_⟩
  · rw [exec_read, selectRow_reserved hsel, exec_readReserved hw]
  · rw [exec_read]
    exact exec_readOptNum_of_le hw hle
  · rw [exec_read]
    exact exec_readOptVal_of_le hw hle
  · exact exec_readOptNum_of_le hw hle
  · exact exec_readOptVal_of_le hw hle
  · obtain ⟨d, h⟩ := exec_selectRow hw hsel hidx
    exact ⟨d, by rw [exec_read, h], h⟩

/-! ## Reset and CLEAR (10 R39, 70 R231) -/

/-- Settles O44: the fields of `resetWith`, read off its definition. -/
theorem resetGivesTheStatedValues : Obligations.ResetGivesTheStatedValues :=
  fun _ => ⟨rfl, rfl, rfl, rfl, rfl, rfl, rfl, rfl, rfl, rfl, by simp [State.done], by simp [State.err],
    by simp [State.errcode]⟩

/-- Settles O45: CLEAR commits the default message and leaves OUT. -/
theorem clearDiffersFromReset : Obligations.ClearDiffersFromReset := by
  intro s c hw
  exact ⟨_, (clearSetsTheDefaultMessage s [] hw).2, rfl, rfl, rfl, rfl, rfl⟩

end Sys2Proof.Machine
end
